-- ==== Sys2Proof/Word.lean ====
section
/-! DEFINITION. The word types of the core: registers, the program counter and memory words are 32-bit patterns
(`10_state.md` R10, R14; `20_memory.md` R30), register indices are 5 bits (R16). -/

namespace Sys2Proof

/-- A 32-bit register, address or memory word (R7, R10). -/
abbrev Word := BitVec 32

/-- A halfword, a "2-byte (16-bit) quantity" (R9). -/
abbrev Half := BitVec 16

/-- A byte (R9, R38). -/
abbrev Byte := BitVec 8

/-- A register index, `0..31` (R10, R16). -/
abbrev RegIdx := BitVec 5

/-- The raw storage of the register file, `cell[0] .. cell[31]` (R10, R11). -/
abbrev RegFile := Vector Word 32

end Sys2Proof
end

