-- ==== Sys2Proof/Machine/Flags.lean ====
section
/-! DEFINITION. The core has "no status flags, condition codes or predicate registers" (`10_state.md` R19), so no
instruction writes a flag. What stands in their place is here: the comparisons that branches and set-if-less-than
make directly on two values (`41_alu.md` R112, R113, R123, R124, R130(c); `43_branch.md` R151 to R156). -/

namespace Sys2Proof.Machine

/-- `a == b` (R151). -/
def equal (a b : Word) : Bool := decide (a = b)

/-- `a != b` (R152). -/
def notEqual (a b : Word) : Bool := decide (a ≠ b)

/-- `s(a) < s(b)` (R123, R153). -/
def lessSigned (a b : Word) : Bool := decide (a.toInt < b.toInt)

/-- `s(a) >= s(b)` (R154). -/
def geSigned (a b : Word) : Bool := decide (a.toInt ≥ b.toInt)

/-- `u(a) < u(b)` (R124, R155). -/
def lessUnsigned (a b : Word) : Bool := decide (a.toNat < b.toNat)

/-- `u(a) >= u(b)` (R156). -/
def geUnsigned (a b : Word) : Bool := decide (a.toNat ≥ b.toNat)

/-- `if c then 1 else 0`: "the 32-bit value `0x00000001` or `0x00000000`, nothing else" (R112). -/
def setIf (c : Bool) : Word := if c then 1 else 0

end Sys2Proof.Machine
end

