-- ==== Sys2Proof/Machine/Bits.lean ====
section
/-! DEFINITION. The bit-field, extension and byte-lane helpers of `00_scope.md` R7 and `20_memory.md` R37 to R42:
what the decoder, WellFormed and the load/store unit share. -/

namespace Sys2Proof

/-- `sext_N(v)` of R7: copies of bit N-1 fill bits 31..N. -/
def sext (N : Nat) (v : BitVec N) : Word := v.signExtend 32

/-- `zext_N(v)` of R7: zeros fill bits 31..N. -/
def zext (N : Nat) (v : BitVec N) : Word := v.setWidth 32

/-- The word holding four bytes, the byte of the lowest address least significant (R42, R44). -/
def wordOfBytes (b0 b1 b2 b3 : Byte) : Word := b3 ++ b2 ++ b1 ++ b0

/-- Byte lane `k` of a word, `w[8k+7 : 8k]` (R42). -/
def byteLane (w : Word) (k : Nat) : Byte := w.extractLsb' (8 * k) 8

/-- `addr & ~3`, the aligned word a byte address lies in (R34). -/
def wordAddr (addr : Word) : Word := addr &&& ~~~3

/-- `8 * (addr & 3)`, a byte's bit offset in its word (R38). -/
def byteShift (addr : Word) : Nat := 8 * (addr &&& 3).toNat

/-- `8 * (addr & 2)`, a halfword's bit offset in its word (R37). -/
def halfShift (addr : Word) : Nat := 8 * (addr &&& 2).toNat

/-- `(w & ~(mask << sh)) | (v << sh)`: the cleared and OR-ed-in target bits of a sub-word store (R40, R41). -/
def replaceBits (w mask v : Word) (sh : Nat) : Word := (w &&& ~~~(mask <<< sh)) ||| (v <<< sh)

/-- A shift distance, the low five bits (R117, R122). -/
def shiftAmount (v : Word) : Nat := (v.extractLsb' 0 5).toNat

/-- A 32-bit value the I- or S-format can deliver: `sext_12` of its low 12 bits (R66, R67). -/
def fits12 (imm : Word) : Bool := imm == sext 12 (imm.extractLsb' 0 12)

/-- A 32-bit value the B-format can deliver: an even `sext_13` (R68). -/
def fitsB (imm : Word) : Bool := imm == sext 13 (imm.extractLsb' 1 12 ++ 0#1)

/-- A 32-bit value the U-format can deliver: the low 12 bits are zero (R69). -/
def fitsU (imm : Word) : Bool := imm == imm.extractLsb' 12 20 ++ 0#12

/-- A 32-bit value the J-format can deliver: an even `sext_21` (R70). -/
def fitsJ (imm : Word) : Bool := imm == sext 21 (imm.extractLsb' 1 20 ++ 0#1)

/-- The immediate of SLLI and SRLI: funct7 0000000 over a 5-bit distance (R71, R72). -/
def fitsShift (imm : Word) : Bool := imm == zext 5 (imm.extractLsb' 0 5)

/-- The immediate of SRAI: "for SRAI that is `0x00000400 | shamt`" (R71). -/
def fitsSrai (imm : Word) : Bool := imm == 0x400 ||| zext 5 (imm.extractLsb' 0 5)

end Sys2Proof
end

