-- ==== Sys2Proof/Decode.lean ====
section
/-! DEFINITION. The decoder interface and the encodings (`30_encoding.md`): the opcode map as a table of rows
(R72), the record the decoder delivers (R16, R63, R71), the decoder (R74), and the encoder written from the
formats (R65) and the table's opcode, funct3 and funct7 columns. The bit patterns are the spec's own, "from general
knowledge, not in source" (log 15). -/

namespace Sys2Proof

/-- The operation kind, "one of a closed enumeration": one member per instruction (`10_state.md` R17). -/
inductive Kind where
  | LUI | AUIPC
  | JAL | JALR
  | BEQ | BNE | BLT | BGE | BLTU | BGEU
  | LB | LH | LW | LBU | LHU
  | SB | SH | SW
  | ADDI | SLTI | SLTIU | XORI | ORI | ANDI | SLLI | SRLI | SRAI
  | ADD | SUB | SLL | SLT | SLTU | XOR | SRL | SRA | OR | AND
  | FENCE | ECALL | EBREAK
  deriving DecidableEq, Repr

/-- The formats of R65, with the three I-format variants the opcode map names (R72): shift-immediate, fields
ignored, all fields fixed. -/
inductive Format where
  | r | i | s | b | u | j | iShift | iIgnored | iFixed
  deriving DecidableEq, Repr

/-- One row of the opcode map (R72); `pattern` is its match column. -/
structure Row where
  kind    : Kind
  format  : Format
  opcode  : BitVec 7
  funct3  : Option (BitVec 3)
  funct7  : Option (BitVec 7)
  pattern : Word
  mask    : Word
  deriving DecidableEq, Repr

/-- The decoder's output, "the dispatcher's only view of an instruction" (R16). -/
structure InstructionRecord where
  kind : Kind
  rd   : RegIdx
  rs1  : RegIdx
  rs2  : RegIdx
  imm  : Word
  deriving DecidableEq, Repr

/-- Why decoding fails: the word is no row of R72 (R77, R78), or fewer than four bytes were given. -/
inductive DecodeFailure where
  | unrecognizedEncoding (inst : Word)
  | truncated (given : Nat)
  deriving DecidableEq, Repr

/-- The opcode map, row by row (R72). -/
def Kind.row : Kind → Row
  | .LUI => ⟨.LUI, .u, 0b0110111, none, none, 0x00000037, 0x0000007F⟩
  | .AUIPC => ⟨.AUIPC, .u, 0b0010111, none, none, 0x00000017, 0x0000007F⟩
  | .JAL => ⟨.JAL, .j, 0b1101111, none, none, 0x0000006F, 0x0000007F⟩
  | .JALR => ⟨.JALR, .i, 0b1100111, some 0b000, none, 0x00000067, 0x0000707F⟩
  | .BEQ => ⟨.BEQ, .b, 0b1100011, some 0b000, none, 0x00000063, 0x0000707F⟩
  | .BNE => ⟨.BNE, .b, 0b1100011, some 0b001, none, 0x00001063, 0x0000707F⟩
  | .BLT => ⟨.BLT, .b, 0b1100011, some 0b100, none, 0x00004063, 0x0000707F⟩
  | .BGE => ⟨.BGE, .b, 0b1100011, some 0b101, none, 0x00005063, 0x0000707F⟩
  | .BLTU => ⟨.BLTU, .b, 0b1100011, some 0b110, none, 0x00006063, 0x0000707F⟩
  | .BGEU => ⟨.BGEU, .b, 0b1100011, some 0b111, none, 0x00007063, 0x0000707F⟩
  | .LB => ⟨.LB, .i, 0b0000011, some 0b000, none, 0x00000003, 0x0000707F⟩
  | .LH => ⟨.LH, .i, 0b0000011, some 0b001, none, 0x00001003, 0x0000707F⟩
  | .LW => ⟨.LW, .i, 0b0000011, some 0b010, none, 0x00002003, 0x0000707F⟩
  | .LBU => ⟨.LBU, .i, 0b0000011, some 0b100, none, 0x00004003, 0x0000707F⟩
  | .LHU => ⟨.LHU, .i, 0b0000011, some 0b101, none, 0x00005003, 0x0000707F⟩
  | .SB => ⟨.SB, .s, 0b0100011, some 0b000, none, 0x00000023, 0x0000707F⟩
  | .SH => ⟨.SH, .s, 0b0100011, some 0b001, none, 0x00001023, 0x0000707F⟩
  | .SW => ⟨.SW, .s, 0b0100011, some 0b010, none, 0x00002023, 0x0000707F⟩
  | .ADDI => ⟨.ADDI, .i, 0b0010011, some 0b000, none, 0x00000013, 0x0000707F⟩
  | .SLTI => ⟨.SLTI, .i, 0b0010011, some 0b010, none, 0x00002013, 0x0000707F⟩
  | .SLTIU => ⟨.SLTIU, .i, 0b0010011, some 0b011, none, 0x00003013, 0x0000707F⟩
  | .XORI => ⟨.XORI, .i, 0b0010011, some 0b100, none, 0x00004013, 0x0000707F⟩
  | .ORI => ⟨.ORI, .i, 0b0010011, some 0b110, none, 0x00006013, 0x0000707F⟩
  | .ANDI => ⟨.ANDI, .i, 0b0010011, some 0b111, none, 0x00007013, 0x0000707F⟩
  | .SLLI => ⟨.SLLI, .iShift, 0b0010011, some 0b001, some 0b0000000, 0x00001013, 0xFE00707F⟩
  | .SRLI => ⟨.SRLI, .iShift, 0b0010011, some 0b101, some 0b0000000, 0x00005013, 0xFE00707F⟩
  | .SRAI => ⟨.SRAI, .iShift, 0b0010011, some 0b101, some 0b0100000, 0x40005013, 0xFE00707F⟩
  | .ADD => ⟨.ADD, .r, 0b0110011, some 0b000, some 0b0000000, 0x00000033, 0xFE00707F⟩
  | .SUB => ⟨.SUB, .r, 0b0110011, some 0b000, some 0b0100000, 0x40000033, 0xFE00707F⟩
  | .SLL => ⟨.SLL, .r, 0b0110011, some 0b001, some 0b0000000, 0x00001033, 0xFE00707F⟩
  | .SLT => ⟨.SLT, .r, 0b0110011, some 0b010, some 0b0000000, 0x00002033, 0xFE00707F⟩
  | .SLTU => ⟨.SLTU, .r, 0b0110011, some 0b011, some 0b0000000, 0x00003033, 0xFE00707F⟩
  | .XOR => ⟨.XOR, .r, 0b0110011, some 0b100, some 0b0000000, 0x00004033, 0xFE00707F⟩
  | .SRL => ⟨.SRL, .r, 0b0110011, some 0b101, some 0b0000000, 0x00005033, 0xFE00707F⟩
  | .SRA => ⟨.SRA, .r, 0b0110011, some 0b101, some 0b0100000, 0x40005033, 0xFE00707F⟩
  | .OR => ⟨.OR, .r, 0b0110011, some 0b110, some 0b0000000, 0x00006033, 0xFE00707F⟩
  | .AND => ⟨.AND, .r, 0b0110011, some 0b111, some 0b0000000, 0x00007033, 0xFE00707F⟩
  | .FENCE => ⟨.FENCE, .iIgnored, 0b0001111, some 0b000, none, 0x0000000F, 0x0000707F⟩
  | .ECALL => ⟨.ECALL, .iFixed, 0b1110011, some 0b000, some 0b0000000, 0x00000073, 0xFFFFFFFF⟩
  | .EBREAK => ⟨.EBREAK, .iFixed, 0b1110011, some 0b000, some 0b0000000, 0x00100073, 0xFFFFFFFF⟩

def upperKinds : List Kind := [.LUI, .AUIPC]
def jumpKinds : List Kind := [.JAL, .JALR]
def branchKinds : List Kind := [.BEQ, .BNE, .BLT, .BGE, .BLTU, .BGEU]
def loadKinds : List Kind := [.LB, .LH, .LW, .LBU, .LHU]
def storeKinds : List Kind := [.SB, .SH, .SW]
def aluImmKinds : List Kind := [.ADDI, .SLTI, .SLTIU, .XORI, .ORI, .ANDI, .SLLI, .SRLI, .SRAI]
def aluRegKinds : List Kind := [.ADD, .SUB, .SLL, .SLT, .SLTU, .XOR, .SRL, .SRA, .OR, .AND]
def systemKinds : List Kind := [.FENCE, .ECALL, .EBREAK]

/-- The 40 kinds, in the table's families (R17). -/
def allKinds : List Kind :=
  upperKinds ++ jumpKinds ++ branchKinds ++ loadKinds ++ storeKinds ++ aluImmKinds ++ aluRegKinds ++ systemKinds

/-- "A word selects the row when `(word & mask) == match`" (R72). -/
def Row.selects (r : Row) (inst : Word) : Bool := (inst &&& r.mask) == r.pattern

/-- No word is selected by both rows: they differ in a bit both fix. -/
def Row.disjoint (r q : Row) : Bool := (r.mask &&& q.mask &&& (r.pattern ^^^ q.pattern)) != 0

/-- `inst[31:20]`, sign-extended (R66). -/
def immI (inst : Word) : Word := sext 12 (inst.extractLsb' 20 12)

/-- `sext_12(inst[31:25] ++ inst[11:7])` (R67). -/
def immS (inst : Word) : Word := sext 12 (inst.extractLsb' 25 7 ++ inst.extractLsb' 7 5)

/-- `sext_13(inst[31] ++ inst[7] ++ inst[30:25] ++ inst[11:8] ++ 0)` (R68). -/
def immB (inst : Word) : Word :=
  sext 13 (inst.extractLsb' 31 1 ++ inst.extractLsb' 7 1 ++ inst.extractLsb' 25 6 ++ inst.extractLsb' 8 4 ++ 0#1)

/-- `inst[31:12] ++ 0^12` (R69). -/
def immU (inst : Word) : Word := inst.extractLsb' 12 20 ++ 0#12

/-- `sext_21(inst[31] ++ inst[19:12] ++ inst[20] ++ inst[30:21] ++ 0)` (R70). -/
def immJ (inst : Word) : Word :=
  sext 21 (inst.extractLsb' 31 1 ++ inst.extractLsb' 12 8 ++ inst.extractLsb' 20 1 ++ inst.extractLsb' 21 10 ++ 0#1)

/-- The immediate delivered per format (R71): the shift-immediates carry the whole I-immediate. -/
def immediate (f : Format) (inst : Word) : Word :=
  match f with
  | .i | .iShift => immI inst
  | .s => immS inst
  | .b => immB inst
  | .u => immU inst
  | .j => immJ inst
  | .r | .iIgnored | .iFixed => 0

/-- The record of a word already known to be of kind `k`: the register fields from their fixed places for every
word (R63, R64), the immediate by the kind's format. -/
def recordOf (k : Kind) (inst : Word) : InstructionRecord :=
  ⟨k, inst.extractLsb' 7 5, inst.extractLsb' 15 5, inst.extractLsb' 20 5, immediate k.row.format inst⟩

/-- The reference decoder of R74, total on all words. -/
def decodeRecord (inst : Word) : Except DecodeFailure InstructionRecord :=
  match allKinds.find? (fun k => k.row.selects inst) with
  | some k => .ok (recordOf k inst)
  | none   => .error (.unrecognizedEncoding inst)

/-- The instruction a record stands for: each kind takes the fields its format defines, and no other (R63). -/
def InstructionRecord.toInstr (r : InstructionRecord) : Instr :=
  match r.kind with
  | .LUI => .lui r.rd r.imm
  | .AUIPC => .auipc r.rd r.imm
  | .JAL => .jal r.rd r.imm
  | .JALR => .jalr r.rd r.rs1 r.imm
  | .BEQ => .beq r.rs1 r.rs2 r.imm
  | .BNE => .bne r.rs1 r.rs2 r.imm
  | .BLT => .blt r.rs1 r.rs2 r.imm
  | .BGE => .bge r.rs1 r.rs2 r.imm
  | .BLTU => .bltu r.rs1 r.rs2 r.imm
  | .BGEU => .bgeu r.rs1 r.rs2 r.imm
  | .LB => .lb r.rd r.rs1 r.imm
  | .LH => .lh r.rd r.rs1 r.imm
  | .LW => .lw r.rd r.rs1 r.imm
  | .LBU => .lbu r.rd r.rs1 r.imm
  | .LHU => .lhu r.rd r.rs1 r.imm
  | .SB => .sb r.rs1 r.rs2 r.imm
  | .SH => .sh r.rs1 r.rs2 r.imm
  | .SW => .sw r.rs1 r.rs2 r.imm
  | .ADDI => .addi r.rd r.rs1 r.imm
  | .SLTI => .slti r.rd r.rs1 r.imm
  | .SLTIU => .sltiu r.rd r.rs1 r.imm
  | .XORI => .xori r.rd r.rs1 r.imm
  | .ORI => .ori r.rd r.rs1 r.imm
  | .ANDI => .andi r.rd r.rs1 r.imm
  | .SLLI => .slli r.rd r.rs1 r.imm
  | .SRLI => .srli r.rd r.rs1 r.imm
  | .SRAI => .srai r.rd r.rs1 r.imm
  | .ADD => .add r.rd r.rs1 r.rs2
  | .SUB => .sub r.rd r.rs1 r.rs2
  | .SLL => .sll r.rd r.rs1 r.rs2
  | .SLT => .slt r.rd r.rs1 r.rs2
  | .SLTU => .sltu r.rd r.rs1 r.rs2
  | .XOR => .xor r.rd r.rs1 r.rs2
  | .SRL => .srl r.rd r.rs1 r.rs2
  | .SRA => .sra r.rd r.rs1 r.rs2
  | .OR => .or r.rd r.rs1 r.rs2
  | .AND => .and r.rd r.rs1 r.rs2
  | .FENCE => .fence
  | .ECALL => .ecall
  | .EBREAK => .ebreak

/-- The kind of an instruction (R17). -/
def Instr.kind : Instr → Kind
  | .lui _ _ => .LUI
  | .auipc _ _ => .AUIPC
  | .jal _ _ => .JAL
  | .jalr _ _ _ => .JALR
  | .beq _ _ _ => .BEQ
  | .bne _ _ _ => .BNE
  | .blt _ _ _ => .BLT
  | .bge _ _ _ => .BGE
  | .bltu _ _ _ => .BLTU
  | .bgeu _ _ _ => .BGEU
  | .lb _ _ _ => .LB
  | .lh _ _ _ => .LH
  | .lw _ _ _ => .LW
  | .lbu _ _ _ => .LBU
  | .lhu _ _ _ => .LHU
  | .sb _ _ _ => .SB
  | .sh _ _ _ => .SH
  | .sw _ _ _ => .SW
  | .addi _ _ _ => .ADDI
  | .slti _ _ _ => .SLTI
  | .sltiu _ _ _ => .SLTIU
  | .xori _ _ _ => .XORI
  | .ori _ _ _ => .ORI
  | .andi _ _ _ => .ANDI
  | .slli _ _ _ => .SLLI
  | .srli _ _ _ => .SRLI
  | .srai _ _ _ => .SRAI
  | .add _ _ _ => .ADD
  | .sub _ _ _ => .SUB
  | .sll _ _ _ => .SLL
  | .slt _ _ _ => .SLT
  | .sltu _ _ _ => .SLTU
  | .xor _ _ _ => .XOR
  | .srl _ _ _ => .SRL
  | .sra _ _ _ => .SRA
  | .or _ _ _ => .OR
  | .and _ _ _ => .AND
  | .fence => .FENCE
  | .ecall => .ECALL
  | .ebreak => .EBREAK

/-- `decode(word)` (R60): pure and total (R61), rejecting every word outside the supported kinds (R62, R77). -/
def decode (inst : Word) : Except DecodeFailure Instr :=
  match decodeRecord inst with
  | .ok r    => .ok r.toInstr
  | .error f => .error f

/-- Decoding bytes as memory holds them: "instruction byte 0 is at address `pc`" (`20_memory.md` R42); answers the
instruction and the bytes after it. -/
def decodeBytes : List Byte → Except DecodeFailure (Instr × List Byte)
  | b0 :: b1 :: b2 :: b3 :: rest =>
    match decode (wordOfBytes b0 b1 b2 b3) with
    | .ok i    => .ok (i, rest)
    | .error f => .error f
  | bytes => .error (.truncated bytes.length)

/-- A row's opcode column (R72). -/
def Kind.opcode (k : Kind) : BitVec 7 := k.row.opcode

/-- A row's funct3 column (R72); rows without one never use it. -/
def Kind.funct3 (k : Kind) : BitVec 3 := k.row.funct3.getD 0

/-- A row's funct7 column (R72); rows without one never use it. -/
def Kind.funct7 (k : Kind) : BitVec 7 := k.row.funct7.getD 0

/-- The R format (R65). -/
def encodeR (k : Kind) (rs2 rs1 rd : RegIdx) : Word :=
  k.funct7 ++ rs2 ++ rs1 ++ k.funct3 ++ rd ++ k.opcode

/-- The I format (R65); a shift-immediate's funct7 stands in the immediate's top bits (R71). -/
def encodeI (k : Kind) (imm : Word) (rs1 rd : RegIdx) : Word :=
  imm.extractLsb' 0 12 ++ rs1 ++ k.funct3 ++ rd ++ k.opcode

/-- The S format (R65). -/
def encodeS (k : Kind) (imm : Word) (rs2 rs1 : RegIdx) : Word :=
  imm.extractLsb' 5 7 ++ rs2 ++ rs1 ++ k.funct3 ++ imm.extractLsb' 0 5 ++ k.opcode

/-- The B format (R65). -/
def encodeB (k : Kind) (imm : Word) (rs2 rs1 : RegIdx) : Word :=
  imm.extractLsb' 12 1 ++ imm.extractLsb' 5 6 ++ rs2 ++ rs1 ++ k.funct3 ++ imm.extractLsb' 1 4 ++
    imm.extractLsb' 11 1 ++ k.opcode

/-- The U format (R65). -/
def encodeU (k : Kind) (imm : Word) (rd : RegIdx) : Word :=
  imm.extractLsb' 12 20 ++ rd ++ k.opcode

/-- The J format (R65). -/
def encodeJ (k : Kind) (imm : Word) (rd : RegIdx) : Word :=
  imm.extractLsb' 20 1 ++ imm.extractLsb' 1 10 ++ imm.extractLsb' 11 1 ++ imm.extractLsb' 12 8 ++ rd ++ k.opcode

/-- The word of a well-formed instruction. FENCE, whose fields are ignored (R75), is written in its canonical form
`0x0FF0000F` (R82; log 22). -/
def encode : Instr → Word
  | .lui rd imm => encodeU .LUI imm rd
  | .auipc rd imm => encodeU .AUIPC imm rd
  | .jal rd imm => encodeJ .JAL imm rd
  | .jalr rd rs1 imm => encodeI .JALR imm rs1 rd
  | .beq rs1 rs2 imm => encodeB .BEQ imm rs2 rs1
  | .bne rs1 rs2 imm => encodeB .BNE imm rs2 rs1
  | .blt rs1 rs2 imm => encodeB .BLT imm rs2 rs1
  | .bge rs1 rs2 imm => encodeB .BGE imm rs2 rs1
  | .bltu rs1 rs2 imm => encodeB .BLTU imm rs2 rs1
  | .bgeu rs1 rs2 imm => encodeB .BGEU imm rs2 rs1
  | .lb rd rs1 imm => encodeI .LB imm rs1 rd
  | .lh rd rs1 imm => encodeI .LH imm rs1 rd
  | .lw rd rs1 imm => encodeI .LW imm rs1 rd
  | .lbu rd rs1 imm => encodeI .LBU imm rs1 rd
  | .lhu rd rs1 imm => encodeI .LHU imm rs1 rd
  | .sb rs1 rs2 imm => encodeS .SB imm rs2 rs1
  | .sh rs1 rs2 imm => encodeS .SH imm rs2 rs1
  | .sw rs1 rs2 imm => encodeS .SW imm rs2 rs1
  | .addi rd rs1 imm => encodeI .ADDI imm rs1 rd
  | .slti rd rs1 imm => encodeI .SLTI imm rs1 rd
  | .sltiu rd rs1 imm => encodeI .SLTIU imm rs1 rd
  | .xori rd rs1 imm => encodeI .XORI imm rs1 rd
  | .ori rd rs1 imm => encodeI .ORI imm rs1 rd
  | .andi rd rs1 imm => encodeI .ANDI imm rs1 rd
  | .slli rd rs1 imm => encodeI .SLLI imm rs1 rd
  | .srli rd rs1 imm => encodeI .SRLI imm rs1 rd
  | .srai rd rs1 imm => encodeI .SRAI imm rs1 rd
  | .add rd rs1 rs2 => encodeR .ADD rs2 rs1 rd
  | .sub rd rs1 rs2 => encodeR .SUB rs2 rs1 rd
  | .sll rd rs1 rs2 => encodeR .SLL rs2 rs1 rd
  | .slt rd rs1 rs2 => encodeR .SLT rs2 rs1 rd
  | .sltu rd rs1 rs2 => encodeR .SLTU rs2 rs1 rd
  | .xor rd rs1 rs2 => encodeR .XOR rs2 rs1 rd
  | .srl rd rs1 rs2 => encodeR .SRL rs2 rs1 rd
  | .sra rd rs1 rs2 => encodeR .SRA rs2 rs1 rd
  | .or rd rs1 rs2 => encodeR .OR rs2 rs1 rd
  | .and rd rs1 rs2 => encodeR .AND rs2 rs1 rd
  | .fence => 0x0FF0000F
  | .ecall => 0x00000073
  | .ebreak => 0x00100073

/-- The instruction the decoder reads from an `nbits`-bit row whose bits are `w`, every bit above `nbits` zero: the
word's four bytes are laid out lowest first and given to the decoder. -/
def decodeTableWord (nbits w : Nat) : Option Instr :=
  if nbits ≤ 32 then
    let word : Word := BitVec.ofNat 32 (w % 2 ^ nbits)
    match decodeBytes [byteLane word 0, byteLane word 1, byteLane word 2, byteLane word 3] with
    | .ok (i, _) => some i
    | .error _   => none
  else none

end Sys2Proof
end

