-- ==== Sys2Proof/Config.lean ====
section
/-! DEFINITION. What the spec leaves to the environment and the model leaves FREE: the answer of an external
Environment-Call Handler and the time a handler takes. Both are opaque constants: no proof can see a value of
theirs, so a theorem holds for every handler (`47_fence_system.md` R203, `92_eei_decisions.md` D16). -/

namespace Sys2Proof

/-- What a handler hands back (R203): the register file it left, its new private state, the bytes it put out. -/
structure HandlerReply where
  regs      : RegFile
  hostState : Nat
  output    : List Byte
  deriving DecidableEq, Repr, Inhabited

/-- FREE. The external Environment-Call Handler: from its private state (coded as a number, log 5) and the
register file it is given to its reply. The program counter and memory are no arguments of it (R204). -/
opaque Config.ecallHandler : Nat → RegFile → HandlerReply

/-- FREE. The clock units a handler takes in the hardware realization, "plus whatever the handler takes"
(`70_reset_and_hazards.md` R264; log 7). -/
opaque Config.handlerTicks : Nat → RegFile → Nat

end Sys2Proof
end

