-- ==== Sys2Proof/Machine/Memory.lean ====
section
/-! DEFINITION. The bytes behind the Memory Port (`20_memory.md` R30, R34, R42, R44): a list of (address, byte) pairs
in one canonical form, and the words assembled from it. No operation here checks anything: the checks are the
checked layer's (`Sys2Proof/Machine/Ops.lean`). -/

namespace Sys2Proof.Machine

/-- Memory contents: addresses strictly rising, no entry equal to what an unlisted address reads as. -/
abbrev Memory := List Host.Cell

/-- What an unlisted address reads as. DESIGN CHOICE, log 4 (unsafe): the spec leaves the contents at reset open,
`MEMINIT` (R257, U10); every contents of a finite memory can be listed, so a statement over all memories loses none. -/
def unlistedByte : Byte := 0

/-- The byte at address `a`. -/
def Memory.readByte : Memory → Nat → Byte
  | [], _ => unlistedByte
  | (k, b) :: rest, a => if k = a then b else Memory.readByte rest a

/-- Store byte `v` at `a`, keeping the canonical form: storing `unlistedByte` removes the entry. -/
def Memory.writeByte : Memory → Nat → Byte → Memory
  | [], a, v => if v = unlistedByte then [] else [(a, v)]
  | (k, b) :: rest, a, v =>
    if a < k then (if v = unlistedByte then (k, b) :: rest else (a, v) :: (k, b) :: rest)
    else if a = k then (if v = unlistedByte then rest else (a, v) :: rest)
    else (k, b) :: Memory.writeByte rest a v

/-- The canonical form. -/
abbrev Memory.wf (m : Memory) : Prop :=
  m.Pairwise (fun c d => c.1 < d.1) ∧ ∀ c ∈ m, c.2 ≠ unlistedByte

/-- Every listed address lies in `[0, size)` (R22, R54). -/
abbrev Memory.within (m : Memory) (size : Nat) : Prop := ∀ c ∈ m, c.1 < size

/-- The word at byte address `a`, byte `a` least significant (R42, R44). -/
def Memory.readWord (m : Memory) (a : Nat) : Word :=
  wordOfBytes (Memory.readByte m a) (Memory.readByte m (a + 1)) (Memory.readByte m (a + 2)) (Memory.readByte m (a + 3))

/-- Store a word at byte address `a`, its least significant byte at `a` (R42, R44). -/
def Memory.writeWord (m : Memory) (a : Nat) (w : Word) : Memory :=
  Memory.writeByte (Memory.writeByte (Memory.writeByte (Memory.writeByte m a (byteLane w 0))
    (a + 1) (byteLane w 1)) (a + 2) (byteLane w 2)) (a + 3) (byteLane w 3)

/-- Store bytes from address `a` up. -/
def Memory.writeBytes : Memory → Nat → List Byte → Memory
  | m, _, [] => m
  | m, a, b :: rest => Memory.writeBytes (Memory.writeByte m a b) (a + 1) rest

/-- Canonical contents from any list of cells, later cells over earlier ones, cells outside the memory dropped. -/
def Memory.ofCells (size : Nat) : Memory → List Host.Cell → Memory
  | m, [] => m
  | m, c :: rest => Memory.ofCells size (if c.1 < size then Memory.writeByte m c.1 c.2 else m) rest

/-- Memory at reset: arbitrary contents `MEMINIT` with the flat image over them, "image byte `k` becoming the byte
at address `k`" (`70_reset_and_hazards.md` R257). -/
def Memory.initial (size : Nat) (contents : List Host.Cell) (image : List Byte) : Memory :=
  Memory.writeBytes (Memory.ofCells size [] contents) 0 image

end Sys2Proof.Machine
end

