-- ==== Sys2Proof/Machine/Platform.lean ====
section
/-! DEFINITION. What the core is handed at construction (`00_scope.md` R5, `10_state.md` R24, `70_reset_and_hazards.md`
R250 to R258): the Memory Port's size and realization, the Environment-Call Handler, the memory bus, and the values a
core starts from. -/

namespace Sys2Proof.Machine

/-- The two realizations of the Memory Port, "selected at construction time" (R24, R44, R45). -/
inductive Realization where
  | software
  | hardware
  deriving DecidableEq, Repr

/-- Which Environment-Call Handler the core was handed (R5, R203): an external one, whose answers are free, or the
reference handler of R206 with its open parameters `SEL_REG`, `ARG_REG`, `ECALL_PRINT_SIGNED` (R207, D27). -/
inductive Handler where
  | external
  | reference (sel arg : RegIdx) (printSigned : Bool)
  deriving DecidableEq, Repr

/-- The parameters of a core (R5, R24); no step writes them. -/
structure Params where
  memSize     : Nat
  realization : Realization
  handler     : Handler
  deriving DecidableEq, Repr

/-- `MEM_SIZE` is "a multiple of 4 with `4 <= MEM_SIZE <= 2^32`" (`20_memory.md` R30). -/
abbrev Params.valid (p : Params) : Prop := p.memSize % 4 = 0 ∧ 4 ≤ p.memSize ∧ p.memSize ≤ 2 ^ 32

/-- The outputs of the memory bus of the hardware realization (`20_memory.md` R46): `mem_addr`, `mem_wdata`,
`mem_we`. They "hold whatever the last access drove" (`10_state.md` R23(c)). -/
structure Bus where
  addr  : BitVec 30
  wdata : Word
  we    : Bool
  deriving DecidableEq, Repr

/-- Everything a core is constructed from: its parameters, `XINIT`, `MEMINIT` as any list of cells, the flat image,
the handler's private state and what the two bus lines without a stated reset value carry (R5, R250 to R258). -/
structure BootSetup where
  params    : Params
  xinit     : RegFile
  memInit   : List Host.Cell
  image     : List Byte
  hostState : Nat
  busAddr   : BitVec 30
  busWdata  : Word
  deriving DecidableEq, Repr

/-- `RESET_PC`, the address of the image's first word (`70_reset_and_hazards.md` R254, D1; log 3). -/
def resetPc : Word := 0x00000000

/-- The register file at reset: `XINIT` with register 0 zero and register 2 "initialized to the memory size",
`MEM_SIZE mod 2^32` (R251, R252, R253). -/
def resetCells (memSize : Nat) (xinit : RegFile) : RegFile :=
  (xinit.set 0 0).set 2 (BitVec.ofNat 32 memSize)

/-- The bus at reset: `mem_we` is 0 (R46); the other lines are the setup's. -/
def resetBus (addr : BitVec 30) (wdata : Word) : Bus := ⟨addr, wdata, false⟩

/-- What `State.reset` is constructed from where the spec leaves a choice. DESIGN CHOICE: `MEM_SIZE` 0x2000 (log 1),
hardware realization and zero bus lines (log 9), external handler with private state 0 (log 5), `XINIT` zero (log 2),
no memory listed and no image (logs 4, 19). -/
def resetSetup : BootSetup where
  params    := ⟨0x2000, .hardware, .external⟩
  xinit     := Vector.replicate 32 0
  memInit   := []
  image     := []
  hostState := 0
  busAddr   := 0
  busWdata  := 0

end Sys2Proof.Machine
end

