-- ==== Sys2Proof/Machine/State.lean ====
section
/-! DEFINITION. The state of the core (`10_state.md`), its traps, and the state after reset
(`70_reset_and_hazards.md` R250 to R257). -/

namespace Sys2Proof.Machine

/-- The sub-cause of an AccessFault: "diagnostic only" (`60_exceptions.md` R222, `20_memory.md` R35). -/
inductive AccessCause where
  | misaligned
  | outOfRange
  deriving DecidableEq, Repr

/-- The three tags of a Trap Record, a "closed set" (`60_exceptions.md` R220). -/
inductive TrapTag where
  | breakpoint
  | accessFault
  | decodeFailure
  deriving DecidableEq, Repr

/-- A trap with the diagnostic info the spec writes after its tag (R222, R224; log 13). -/
inductive Trap where
  | breakpoint (pc : Word)
  | accessFault (cause : AccessCause) (addr : Word)
  | decodeFailure (inst : Word)
  deriving DecidableEq, Repr

/-- The run state between steps (`10_state.md` R18). -/
inductive RunState where
  | running
  | trapped (t : Trap)
  deriving DecidableEq, Repr

/-- The state of the core: "an explicit Core Context value" (`10_state.md`).
`cells` is the raw register storage, register 0 included (R10, R23(a)); `pc` R14; `run` R18; `mem` R22; `bus` R23(c);
`clock` counts clock units (`70_reset_and_hazards.md` R261); `output` and `hostState` are the handler's (R23(d));
`params` are the construction-time parameters (R24). -/
structure State where
  cells     : RegFile
  pc        : Word
  run       : RunState
  mem       : Memory
  bus       : Bus
  clock     : Nat
  output    : List Byte
  hostState : Nat
  params    : Params
  deriving DecidableEq, Repr

/-- Why the model itself stops. -/
inductive Fault where
  /-- Raised by `portRead` and `portWrite` when the port is called outside its domain, which the spec leaves
  undefined (`20_memory.md` R31, R32; `93_implementation_defined.md` U1, U2; `60_exceptions.md` R223(a)).
  The checked layer never calls them so, and no step answers this fault. Safe. -/
  | portMisuse
  deriving DecidableEq, Repr

/-- Why the model refuses an instruction. -/
inductive Refusal where
  /-- Raised by an arm of `exec` that has no meaning yet; no arm is left so. Safe. -/
  | notModelled (mnemonic : String)
  deriving DecidableEq, Repr

/-- The initial state built from a setup (R250 to R257). It is none where no core starts: parameters outside R30, or
"an image larger than the buffer", a startup error (`60_exceptions.md` R235, R257). -/
def State.boot (b : BootSetup) : Option State :=
  if b.params.valid ∧ b.image.length ≤ b.params.memSize then
    some
      { cells     := resetCells b.params.memSize b.xinit
        pc        := resetPc
        run       := .running
        mem       := Memory.initial b.params.memSize b.memInit b.image
        bus       := resetBus b.busAddr b.busWdata
        clock     := 0
        output    := []
        hostState := b.hostState
        params    := b.params }
  else none

/-- The machine right after reset, with nothing loaded: the boot of `resetSetup` (law `boot_resetSetup`), each field
at the value R251 to R257 give or log 1 to 9 name. -/
def State.reset : State where
  cells     := resetCells resetSetup.params.memSize resetSetup.xinit
  pc        := resetPc
  run       := .running
  mem       := []
  bus       := resetBus resetSetup.busAddr resetSetup.busWdata
  clock     := 0
  output    := []
  hostState := resetSetup.hostState
  params    := resetSetup.params

end Sys2Proof.Machine
end

