-- ==== Sys2Proof/Machine/Ops.lean ====
section
/-! DEFINITION. The named operations every instruction is built from: registers, the clock, traps, the Memory Port in
its two realizations, the checked word access and the composed accesses (`10_state.md`, `20_memory.md`,
`40_core_cycle.md`, `60_exceptions.md`). -/

namespace Sys2Proof.Machine

/-- The outcomes of a step or of an instruction. -/
abbrev Result := Host.Outcome State Fault Refusal

/-! ## Registers and the program counter -/

/-- The architectural read `x[i]`: register 0 is zero (`10_state.md` R11). -/
def readReg (i : RegIdx) (s : State) : Word := if i = 0 then 0 else s.cells[i.toNat]'i.isLt

/-- `x[i] <- v` stores into `cell[i]`, "index 0 included" (R12). -/
def writeReg (i : RegIdx) (v : Word) (s : State) : State :=
  { s with cells := s.cells.set i.toNat v i.isLt }

/-- The 32 registers as any reader sees them, register 0 zero (R11, `47_fence_system.md` R203). -/
def archRegs (s : State) : RegFile := s.cells.set 0 0

/-- Retiring without an override: `pc <- pc + 4`, modulo 2^32 (`40_core_cycle.md` R97, R15). -/
def retire (s : State) : State := { s with pc := s.pc + 4 }

/-- Retiring with an override: `pc` becomes exactly the target; nothing is checked (R97). -/
def retireTo (target : Word) (s : State) : State := { s with pc := target }

/-! ## The clock (`70_reset_and_hazards.md` R261 to R264) -/

/-- `n` clock units pass. -/
def tick (n : Nat) (s : State) : State := { s with clock := s.clock + n }

/-- Between Decoding and Dispatching one clock unit passes (R94), then "`cell[0] <- 0`" before any register is read
(R95). -/
def beginDispatch (s : State) : State := { tick 1 s with cells := s.cells.set 0 0 }

/-! ## Traps (`60_exceptions.md`) -/

/-- The tag of a trap (R220). -/
def Trap.tag : Trap → TrapTag
  | .breakpoint _    => .breakpoint
  | .accessFault _ _ => .accessFault
  | .decodeFailure _ => .decodeFailure

/-- The Trap Controller's single entry point (R221): trap entry "saves nothing and changes nothing but the run state"
(R225). There is no return from it (R228). -/
def takeTrap (t : Trap) (s : State) : State := { s with run := .trapped t }

/-- A step in `Trapped`: "advancing a cycle-clock with no further state change" (R226; one model step is one clock
unit, log 8). -/
def haltTick (s : State) : State := tick 1 s

/-! ## Accesses: a value and the state after, or a trap, or the port called outside its domain -/

/-- The outcome of a memory access. -/
inductive Access (α : Type) where
  | ok (value : α) (s : State)
  | trap (t : Trap)
  | fault (f : Fault)

/-- Sequence two accesses; the first trap ends the access (R230). -/
def Access.bind {α β : Type} (r : Access α) (k : α → State → Access β) : Access β :=
  match r with
  | .ok v s  => k v s
  | .trap t  => .trap t
  | .fault f => .fault f

/-- Go on with an access's value; on a trap the step stops with the state it had before the access, but for the run
state (`40_core_cycle.md` R98). -/
def Access.conclude {α : Type} (r : Access α) (before : State) (k : α → State → Result) : Result :=
  match r with
  | .ok v s  => k v s
  | .trap t  => .next (takeTrap t before)
  | .fault f => .fault f

/-! ## The Memory Port and its two realizations (`20_memory.md` R31, R32, R44 to R48) -/

/-- The read transaction on the bus: drive `mem_addr` with `mem_we = 0`, wait one clock unit (R46). The software
realization has no bus and takes no time (R44, R264). -/
def busRead (a : Word) (s : State) : State :=
  match s.params.realization with
  | .software => s
  | .hardware => tick 1 { s with bus := ⟨a.extractLsb' 2 30, s.bus.wdata, false⟩ }

/-- The first half of a write transaction: drive address, data and write-enable (R46). -/
def driveWrite (a w : Word) (s : State) : State := { s with bus := ⟨a.extractLsb' 2 30, w, true⟩ }

/-- "deassert write-enable"; address and data keep their values (R46). -/
def releaseWrite (s : State) : State := { s with bus := { s.bus with we := false } }

/-- The write transaction on the bus: write-enable "for exactly one clock" (R46). -/
def busWrite (a w : Word) (s : State) : State :=
  match s.params.realization with
  | .software => s
  | .hardware => releaseWrite (tick 1 (driveWrite a w s))

/-- `a[1:0] != 0` (R35). -/
def misaligned (a : Word) : Bool := a.extractLsb' 0 2 != 0

/-- `u(a) + 4 > MEM_SIZE` (R35). -/
def beyondMemory (a : Word) (s : State) : Bool := decide (a.toNat + 4 > s.params.memSize)

/-- Where the port's operations are defined: "a word-aligned `a` with `u(a) + 4 <= MEM_SIZE`" (R31, R32). -/
def portDomain (a : Word) (s : State) : Bool := a.extractLsb' 0 2 == 0 && decide (a.toNat + 4 ≤ s.params.memSize)

/-- `PortRead(a)` (R31): `M(a)`, with the bus transaction of R46. -/
def portRead (a : Word) (s : State) : Access Word :=
  if portDomain a s then .ok (Memory.readWord s.mem a.toNat) (busRead a s) else .fault .portMisuse

/-- `PortWrite(a, w)` (R32): `M(a) <- w`, with the bus transaction of R46. -/
def portWrite (a w : Word) (s : State) : Access Unit :=
  if portDomain a s then .ok () (busWrite a w { s with mem := Memory.writeWord s.mem a.toNat w })
  else .fault .portMisuse

/-! ## The checked word access (`20_memory.md` R35) -/

/-- `WordRead(a)`: alignment first, then range, then the port. -/
def wordRead (a : Word) (s : State) : Access Word :=
  if misaligned a then .trap (.accessFault .misaligned a)
  else if beyondMemory a s then .trap (.accessFault .outOfRange a)
  else portRead a s

/-- `WordWrite(a, w)`: alignment first, then range, then the port. -/
def wordWrite (a w : Word) (s : State) : Access Unit :=
  if misaligned a then .trap (.accessFault .misaligned a)
  else if beyondMemory a s then .trap (.accessFault .outOfRange a)
  else portWrite a w s

/-! ## The composed accesses (`20_memory.md` R36 to R41) -/

/-- `MemRead(addr, 4)` (R36). -/
def memReadWord (addr : Word) (s : State) : Access Word := wordRead addr s

/-- `MemRead(addr, 2)` (R37): an odd address is misaligned; else 16 bits of the containing word. -/
def memReadHalf (addr : Word) (s : State) : Access Half :=
  if addr.extractLsb' 0 1 != 0 then .trap (.accessFault .misaligned addr)
  else (wordRead (wordAddr addr) s).bind fun w s1 => .ok ((w >>> halfShift addr).extractLsb' 0 16) s1

/-- `MemRead(addr, 1)` (R38): 8 bits of the containing word. -/
def memReadByte (addr : Word) (s : State) : Access Byte :=
  (wordRead (wordAddr addr) s).bind fun w s1 => .ok ((w >>> byteShift addr).extractLsb' 0 8) s1

/-- `MemWrite(addr, 4, v)` (R39): one port write, no read (D23). -/
def memWriteWord (addr v : Word) (s : State) : Access Unit := wordWrite addr v s

/-- `MemWrite(addr, 2, v)` (R40): an odd address is misaligned (D21); else read, replace 16 bits, write. -/
def memWriteHalf (addr v : Word) (s : State) : Access Unit :=
  if addr.extractLsb' 0 1 != 0 then .trap (.accessFault .misaligned addr)
  else (wordRead (wordAddr addr) s).bind fun w s1 =>
    wordWrite (wordAddr addr) (replaceBits w 0x0000FFFF (zext 16 (v.extractLsb' 0 16)) (halfShift addr)) s1

/-- `MemWrite(addr, 1, v)` (R41): read, replace 8 bits, write. -/
def memWriteByte (addr v : Word) (s : State) : Access Unit :=
  (wordRead (wordAddr addr) s).bind fun w s1 =>
    wordWrite (wordAddr addr) (replaceBits w 0x000000FF (zext 8 (v.extractLsb' 0 8)) (byteShift addr)) s1

/-! ## Fetching (`40_core_cycle.md` R92) -/

/-- `inst <- MemRead(pc, 4)`. -/
def fetch (s : State) : Access Word := memReadWord s.pc s

/-- The state with an instruction's word, given as the table numbers its bits, stored at the program counter. -/
def storeFetchWord (s : State) (nbits w : Nat) : State :=
  { s with mem := Memory.writeWord s.mem s.pc.toNat (BitVec.ofNat 32 (w % 2 ^ nbits)) }

end Sys2Proof.Machine
end

