-- ==== Sys2Proof/Machine/Operands.lean ====
section
/-! DEFINITION. The operand forms: the shapes in which instructions take their sources and place their result. Every
source is read before the destination is written (`40_core_cycle.md` R96; log 14). -/

namespace Sys2Proof.Machine

/-- The one addressing mode: `ea = x[rs1] + imm`, wrapping (`45_load.md` R175, `46_store.md` R190). -/
def effectiveAddress (rs1 : RegIdx) (imm : Word) (s : State) : Word := readReg rs1 s + imm

/-- A branch or direct-jump target: `pc + imm`, of the instruction's own address (R150, R166). -/
def relativeTarget (imm : Word) (s : State) : Word := s.pc + imm

/-- A register-indirect target: `(x[rs1] + imm) & 0xFFFFFFFE`, only bit 0 cleared (R167). -/
def indirectTarget (rs1 : RegIdx) (imm : Word) (s : State) : Word := (readReg rs1 s + imm) &&& 0xFFFFFFFE

/-- Write the result to `x[rd]` and retire (R110, R140). -/
def result (rd : RegIdx) (v : Word) (s : State) : Result := .next (retire (writeReg rd v s))

/-- Register-immediate: `x[rd] <- f(x[rs1], imm)` (R110). -/
def regImm (f : Word → Word → Word) (rd rs1 : RegIdx) (imm : Word) (s : State) : Result :=
  result rd (f (readReg rs1 s) imm) s

/-- Register-register: `x[rd] <- f(x[rs1], x[rs2])` (R110). -/
def regReg (f : Word → Word → Word) (rd rs1 rs2 : RegIdx) (s : State) : Result :=
  result rd (f (readReg rs1 s) (readReg rs2 s)) s

/-- Branch on a comparison of two registers: `pc + imm` if it holds, else `pc + 4` (R150). -/
def branchIf (cond : Word → Word → Bool) (rs1 rs2 : RegIdx) (imm : Word) (s : State) : Result :=
  .next (if cond (readReg rs1 s) (readReg rs2 s) then retireTo (relativeTarget imm s) s else retire s)

/-- Link and jump: `x[rd] <- pc + 4`, then `pc` is the target, computed from the state before the write
(R165 to R167). -/
def linkAndJump (rd : RegIdx) (target : Word) (s : State) : Result :=
  .next (retireTo target (writeReg rd (s.pc + 4) s))

/-- A load: `x[rd]` is "written only after `MemRead` has returned"; a trapping access writes nothing (R175). -/
def loadInto {n : Nat} (rd : RegIdx) (access : Access (BitVec n)) (extend : BitVec n → Word) (s : State) : Result :=
  access.conclude s fun v s1 => result rd (extend v) s1

/-- A store: no register is written (R190). -/
def storeBy (access : Access Unit) (s : State) : Result :=
  access.conclude s fun _ s1 => .next (retire s1)

end Sys2Proof.Machine
end

