-- ==== Sys2Proof/Machine/Alu.lean ====
section
/-! DEFINITION. The arithmetic and logical instructions (`41_alu.md`). None traps, none records overflow (R110, R130). -/

namespace Sys2Proof.Machine

/-! ## The operations on two values -/

/-- `a + b` modulo 2^32 (R120, R130(a)). -/
def addWords (a b : Word) : Word := a + b

/-- `a - b` modulo 2^32 (R121). -/
def subWords (a b : Word) : Word := a - b

/-- `a << b[4:0]`, zeros entering at bit 0 (R117, R122). -/
def shiftLeft (a b : Word) : Word := a <<< shiftAmount b

/-- `a >>u b[4:0]`, zeros entering at bit 31 (R118, R126). -/
def shiftRightLogical (a b : Word) : Word := a >>> shiftAmount b

/-- `a >>s b[4:0]`, copies of bit 31 entering (R119, R127). -/
def shiftRightArith (a b : Word) : Word := a.sshiftRight (shiftAmount b)

/-- `if s(a) < s(b) then 1 else 0` (R112, R123). -/
def setLessSigned (a b : Word) : Word := setIf (lessSigned a b)

/-- `if u(a) < u(b) then 1 else 0` (R113, R124). -/
def setLessUnsigned (a b : Word) : Word := setIf (lessUnsigned a b)

/-- `a ^ b` (R114, R125). -/
def xorWords (a b : Word) : Word := a ^^^ b

/-- `a | b` (R115, R128). -/
def orWords (a b : Word) : Word := a ||| b

/-- `a & b` (R116, R129). -/
def andWords (a b : Word) : Word := a &&& b

/-! ## Register-immediate -/

/-- ADDI (R111): `x[rd] <- x[rs1] + imm`. -/
def execAddi (rd rs1 : RegIdx) (imm : Word) (s : State) : Result := regImm addWords rd rs1 imm s

/-- SLTI (R112): `x[rd] <- if s(x[rs1]) < s(imm) then 1 else 0`. -/
def execSlti (rd rs1 : RegIdx) (imm : Word) (s : State) : Result := regImm setLessSigned rd rs1 imm s

/-- SLTIU (R113): `x[rd] <- if u(x[rs1]) < u(imm) then 1 else 0`. -/
def execSltiu (rd rs1 : RegIdx) (imm : Word) (s : State) : Result := regImm setLessUnsigned rd rs1 imm s

/-- XORI (R114): `x[rd] <- x[rs1] ^ imm`. -/
def execXori (rd rs1 : RegIdx) (imm : Word) (s : State) : Result := regImm xorWords rd rs1 imm s

/-- ORI (R115): `x[rd] <- x[rs1] | imm`. -/
def execOri (rd rs1 : RegIdx) (imm : Word) (s : State) : Result := regImm orWords rd rs1 imm s

/-- ANDI (R116): `x[rd] <- x[rs1] & imm`. -/
def execAndi (rd rs1 : RegIdx) (imm : Word) (s : State) : Result := regImm andWords rd rs1 imm s

/-- SLLI (R117): `x[rd] <- x[rs1] << imm[4:0]`. -/
def execSlli (rd rs1 : RegIdx) (imm : Word) (s : State) : Result := regImm shiftLeft rd rs1 imm s

/-- SRLI (R118): `x[rd] <- x[rs1] >>u imm[4:0]`. -/
def execSrli (rd rs1 : RegIdx) (imm : Word) (s : State) : Result := regImm shiftRightLogical rd rs1 imm s

/-- SRAI (R119): `x[rd] <- x[rs1] >>s imm[4:0]`. -/
def execSrai (rd rs1 : RegIdx) (imm : Word) (s : State) : Result := regImm shiftRightArith rd rs1 imm s

/-! ## Register-register -/

/-- ADD (R120): `x[rd] <- x[rs1] + x[rs2]`. -/
def execAdd (rd rs1 rs2 : RegIdx) (s : State) : Result := regReg addWords rd rs1 rs2 s

/-- SUB (R121): `x[rd] <- x[rs1] - x[rs2]`. -/
def execSub (rd rs1 rs2 : RegIdx) (s : State) : Result := regReg subWords rd rs1 rs2 s

/-- SLL (R122): `x[rd] <- x[rs1] << x[rs2][4:0]`. -/
def execSll (rd rs1 rs2 : RegIdx) (s : State) : Result := regReg shiftLeft rd rs1 rs2 s

/-- SLT (R123): `x[rd] <- if s(x[rs1]) < s(x[rs2]) then 1 else 0`. -/
def execSlt (rd rs1 rs2 : RegIdx) (s : State) : Result := regReg setLessSigned rd rs1 rs2 s

/-- SLTU (R124): `x[rd] <- if u(x[rs1]) < u(x[rs2]) then 1 else 0`. -/
def execSltu (rd rs1 rs2 : RegIdx) (s : State) : Result := regReg setLessUnsigned rd rs1 rs2 s

/-- XOR (R125): `x[rd] <- x[rs1] ^ x[rs2]`. -/
def execXor (rd rs1 rs2 : RegIdx) (s : State) : Result := regReg xorWords rd rs1 rs2 s

/-- SRL (R126): `x[rd] <- x[rs1] >>u x[rs2][4:0]`. -/
def execSrl (rd rs1 rs2 : RegIdx) (s : State) : Result := regReg shiftRightLogical rd rs1 rs2 s

/-- SRA (R127): `x[rd] <- x[rs1] >>s x[rs2][4:0]`. -/
def execSra (rd rs1 rs2 : RegIdx) (s : State) : Result := regReg shiftRightArith rd rs1 rs2 s

/-- OR (R128): `x[rd] <- x[rs1] | x[rs2]`. -/
def execOr (rd rs1 rs2 : RegIdx) (s : State) : Result := regReg orWords rd rs1 rs2 s

/-- AND (R129): `x[rd] <- x[rs1] & x[rs2]`. -/
def execAnd (rd rs1 rs2 : RegIdx) (s : State) : Result := regReg andWords rd rs1 rs2 s

end Sys2Proof.Machine
end

