-- ==== Sys2Proof/Machine/Branch.lean ====
section
/-! DEFINITION. The conditional branches (`43_branch.md`). A branch never checks its target (R157). -/

namespace Sys2Proof.Machine

/-- BEQ (R151): taken if `x[rs1] == x[rs2]`. -/
def execBeq (rs1 rs2 : RegIdx) (imm : Word) (s : State) : Result := branchIf equal rs1 rs2 imm s

/-- BNE (R152): taken if `x[rs1] != x[rs2]`. -/
def execBne (rs1 rs2 : RegIdx) (imm : Word) (s : State) : Result := branchIf notEqual rs1 rs2 imm s

/-- BLT (R153): taken if `s(x[rs1]) < s(x[rs2])`. -/
def execBlt (rs1 rs2 : RegIdx) (imm : Word) (s : State) : Result := branchIf lessSigned rs1 rs2 imm s

/-- BGE (R154): taken if `s(x[rs1]) >= s(x[rs2])`. -/
def execBge (rs1 rs2 : RegIdx) (imm : Word) (s : State) : Result := branchIf geSigned rs1 rs2 imm s

/-- BLTU (R155): taken if `u(x[rs1]) < u(x[rs2])`. -/
def execBltu (rs1 rs2 : RegIdx) (imm : Word) (s : State) : Result := branchIf lessUnsigned rs1 rs2 imm s

/-- BGEU (R156): taken if `u(x[rs1]) >= u(x[rs2])`. -/
def execBgeu (rs1 rs2 : RegIdx) (imm : Word) (s : State) : Result := branchIf geUnsigned rs1 rs2 imm s

end Sys2Proof.Machine
end

