-- ==== Sys2Proof/Machine/Jump.lean ====
section
/-! DEFINITION. JAL and JALR (`44_jump.md`). Neither checks its target: a bad one faults at the next fetch (R168). -/

namespace Sys2Proof.Machine

/-- JAL (R166): `x[rd] <- pc + 4; pc <- pc + imm`. -/
def execJal (rd : RegIdx) (imm : Word) (s : State) : Result := linkAndJump rd (relativeTarget imm s) s

/-- JALR (R167): `t = (x[rs1] + imm) & 0xFFFFFFFE`, read first; `x[rd] <- pc + 4; pc <- t`. -/
def execJalr (rd rs1 : RegIdx) (imm : Word) (s : State) : Result := linkAndJump rd (indirectTarget rs1 imm s) s

end Sys2Proof.Machine
end

