-- ==== Sys2Proof/Machine/Load.lean ====
section
/-! DEFINITION. The loads (`45_load.md`). With `rd = 0` "the access is still performed (and can still trap)" (R175). -/

namespace Sys2Proof.Machine

/-- LB (R176): `x[rd] <- sext_8(MemRead(ea, 1))`. -/
def execLb (rd rs1 : RegIdx) (imm : Word) (s : State) : Result :=
  loadInto rd (memReadByte (effectiveAddress rs1 imm s) s) (sext 8) s

/-- LH (R177): `x[rd] <- sext_16(MemRead(ea, 2))`. -/
def execLh (rd rs1 : RegIdx) (imm : Word) (s : State) : Result :=
  loadInto rd (memReadHalf (effectiveAddress rs1 imm s) s) (sext 16) s

/-- LW (R178): `x[rd] <- MemRead(ea, 4)`. -/
def execLw (rd rs1 : RegIdx) (imm : Word) (s : State) : Result :=
  loadInto rd (memReadWord (effectiveAddress rs1 imm s) s) id s

/-- LBU (R179): `x[rd] <- zext_8(MemRead(ea, 1))`. -/
def execLbu (rd rs1 : RegIdx) (imm : Word) (s : State) : Result :=
  loadInto rd (memReadByte (effectiveAddress rs1 imm s) s) (zext 8) s

/-- LHU (R180): `x[rd] <- zext_16(MemRead(ea, 2))`. -/
def execLhu (rd rs1 : RegIdx) (imm : Word) (s : State) : Result :=
  loadInto rd (memReadHalf (effectiveAddress rs1 imm s) s) (zext 16) s

end Sys2Proof.Machine
end

