-- ==== Sys2Proof/Machine/Store.lean ====
section
/-! DEFINITION. The stores (`46_store.md`): the low 8, 16 or 32 bits of `x[rs2]` (R190). -/

namespace Sys2Proof.Machine

/-- SB (R191): `MemWrite(ea, 1, x[rs2])`. -/
def execSb (rs1 rs2 : RegIdx) (imm : Word) (s : State) : Result :=
  storeBy (memWriteByte (effectiveAddress rs1 imm s) (readReg rs2 s) s) s

/-- SH (R192): `MemWrite(ea, 2, x[rs2])`. -/
def execSh (rs1 rs2 : RegIdx) (imm : Word) (s : State) : Result :=
  storeBy (memWriteHalf (effectiveAddress rs1 imm s) (readReg rs2 s) s) s

/-- SW (R193): `MemWrite(ea, 4, x[rs2])`. -/
def execSw (rs1 rs2 : RegIdx) (imm : Word) (s : State) : Result :=
  storeBy (memWriteWord (effectiveAddress rs1 imm s) (readReg rs2 s) s) s

end Sys2Proof.Machine
end

