-- ==== Sys2Proof/Machine/System.lean ====
section
/-! DEFINITION. FENCE, EBREAK and ECALL (`47_fence_system.md`), with the Environment-Call Handler contract of R203 to
R207 and the reference handler of R206. -/

namespace Sys2Proof.Machine

/-- FENCE (R200): "No-op"; `pc <- pc + 4`. -/
def execFence (s : State) : Result := .next (retire s)

/-- EBREAK (R201): `raise Breakpoint(pc)`; it never retires. -/
def execEbreak (s : State) : Result := .next (takeTrap (.breakpoint s.pc) s)

/-! ## The reference handler (R206, R207) -/

/-- A decimal digit as a character. -/
def digitByte (d : Nat) : Byte := BitVec.ofNat 8 (0x30 + d % 10)

/-- The decimal digits of `n`, most significant first, before `acc`; `fuel` digits at most. -/
def digitsBefore : Nat → Nat → List Byte → List Byte
  | 0, _, acc => acc
  | fuel + 1, n, acc =>
    if n < 10 then digitByte n :: acc else digitsBefore fuel (n / 10) (digitByte (n % 10) :: acc)

/-- `decimal(v)`, read unsigned, or signed with a leading minus sign where `ECALL_PRINT_SIGNED` is set (R206, D27;
log 6). A 32-bit value has at most ten digits. -/
def decimalText (printSigned : Bool) (v : Word) : List Byte :=
  if printSigned && v.msb then 0x2D :: digitsBefore 10 (2 ^ 32 - v.toNat) [] else digitsBefore 10 v.toNat []

/-- What the reference handler puts out: selector 0 one character, the argument's low byte; selector 1 the argument
in decimal and a newline; other selectors nothing (R206). -/
def refOutput (sel arg : RegIdx) (printSigned : Bool) (x : RegFile) : List Byte :=
  if x[sel.toNat]'sel.isLt = 0 then [(x[arg.toNat]'arg.isLt).extractLsb' 0 8]
  else if x[sel.toNat]'sel.isLt = 1 then decimalText printSigned (x[arg.toNat]'arg.isLt) ++ [0x0A]
  else []

/-- `RefHandler(x)`: the registers are returned unchanged (R206, D16). -/
def refHandler (sel arg : RegIdx) (printSigned : Bool) (hostState : Nat) (x : RegFile) : HandlerReply :=
  ⟨x, hostState, refOutput sel arg printSigned x⟩

/-! ## The environment call -/

/-- Call the handler the core was handed (R203): the external one answers what it likes. -/
def callHandler (h : Handler) (hostState : Nat) (x : RegFile) : HandlerReply :=
  match h with
  | .external                      => Config.ecallHandler hostState x
  | .reference sel arg printSigned => refHandler sel arg printSigned hostState x

/-- The time the handler takes, in the hardware realization only (`70_reset_and_hazards.md` R264; log 7). -/
def handlerTime (x : RegFile) (s : State) : State :=
  match s.params.realization with
  | .software => s
  | .hardware => tick (Config.handlerTicks s.hostState x) s

/-- The handler's reply taken into the state: "the register file is whatever it left" (R203); its private state and
its output are its own (R205); the program counter and memory are out of its reach (R204). -/
def acceptReply (r : HandlerReply) (s : State) : State :=
  { s with cells := r.regs, hostState := r.hostState, output := s.output ++ r.output }

/-- ECALL (R202): the handler is given the 32 registers, register 0 zero, and `pc <- pc + 4`; not a trap. -/
def execEcall (s : State) : Result :=
  .next (retire (acceptReply (callHandler s.params.handler s.hostState (archRegs s)) (handlerTime (archRegs s) s)))

end Sys2Proof.Machine
end

