-- ==== Sys2Proof/Machine/UpperImmediate.lean ====
section
/-! DEFINITION. LUI and AUIPC (`42_upper_immediate.md`). -/

namespace Sys2Proof.Machine

/-- LUI (R141): `x[rd] <- imm`. -/
def execLui (rd : RegIdx) (imm : Word) (s : State) : Result := result rd imm s

/-- AUIPC (R142): `x[rd] <- pc + imm`, of its own address. -/
def execAuipc (rd : RegIdx) (imm : Word) (s : State) : Result := result rd (s.pc + imm) s

end Sys2Proof.Machine
end

