-- ==== Sys2Proof/Machine/Cycle.lean ====
section
/-! DEFINITION. One step: Fetching, Decoding, Dispatching, Retiring (`40_core_cycle.md` R90 to R99). Retiring is the
last thing an instruction's arm does (`retire`, `retireTo`), since a trap raised in the arm leaves it out (R98). -/

namespace Sys2Proof.Machine

/-- Decoding and Dispatching of a fetched word: a decode failure traps with nothing changed (R93), else the clock unit
and the clearing of register 0 (R94, R95) and then the instruction's arm (R96). -/
def decodeAndDispatch (inst : Word) (s : State) : Result :=
  match decode inst with
  | .ok i    => exec i (beginDispatch s)
  | .error _ => .next (takeTrap (.decodeFailure inst) s)

/-- The whole step for run state `Running` (R99). -/
def runningStep (s : State) : Result := (fetch s).conclude s decodeAndDispatch

/-- A step of the core: `Running` executes one instruction; in `Trapped` "no step is ever taken" and only the clock
goes on (R91, R226). -/
def coreStep (s : State) : Result :=
  match s.run with
  | .running   => runningStep s
  | .trapped _ => .next (haltTick s)

end Sys2Proof.Machine
end

