-- ==== Sys2Proof/Machine/Step.lean ====
section
/-! DEFINITION. The machine's step, and the placing of an instruction's word where the next step fetches. -/

namespace Sys2Proof.Machine

/-- One step of the machine (`40_core_cycle.md` R99; `60_exceptions.md` R226). -/
def step (s : State) : Host.Outcome State Fault Refusal := coreStep s

/-- The state with that instruction stored at the program counter, where the next step fetches (R92): it stands for
the loading of a program (log 19). -/
def State.withFetchWord (s : State) (nbits w : Nat) : State := storeFetchWord s nbits w

end Sys2Proof.Machine
end

