-- ==== Sys2Proof/Safety.lean ====
section
/-! DEFINITION. What a safe run of the core is, in the terms the statements use: what an instruction leaves unchanged,
which trap a step raises, the invariant every step keeps, and when two cores are the same to a program. -/

namespace Sys2Proof.Machine

/-! ## What changes and what does not -/

/-- Every register reads as before. -/
def SameRegs (s t : State) : Prop := ∀ i : RegIdx, readReg i t = readReg i s

/-- `x[rd]` reads `v`, unless `rd` is register 0, and every other register reads as before (`10_state.md` R11, R12). -/
def WritesOnly (rd : RegIdx) (v : Word) (s t : State) : Prop :=
  ∀ i : RegIdx, readReg i t = if i = rd ∧ i ≠ 0 then v else readReg i s

/-- Every byte of memory reads as before. -/
def SameMemory (s t : State) : Prop := ∀ a : Nat, Memory.readByte t.mem a = Memory.readByte s.mem a

/-- Every byte of memory reads as before but the `n` bytes from `ea`, which are the lowest byte lanes of `v`. -/
def Stores (n : Nat) (ea v : Word) (s t : State) : Prop :=
  ∀ a : Nat, Memory.readByte t.mem a =
    if ea.toNat ≤ a ∧ a < ea.toNat + n then byteLane v (a - ea.toNat) else Memory.readByte s.mem a

/-- The run state, the handler's output and private state and the parameters are as before. -/
def SameContext (s t : State) : Prop :=
  t.run = s.run ∧ t.output = s.output ∧ t.hostState = s.hostState ∧ t.params = s.params

/-- No transaction on the bus and no time passed. -/
def NoTransaction (s t : State) : Prop := t.bus = s.bus ∧ t.clock = s.clock

/-- The bus and the clock after one read transaction at the word of `a` (`20_memory.md` R46, R47). -/
def AfterRead (a : Word) (s t : State) : Prop :=
  match s.params.realization with
  | .software => t.bus = s.bus ∧ t.clock = s.clock
  | .hardware => t.bus = ⟨a.extractLsb' 2 30, s.bus.wdata, false⟩ ∧ t.clock = s.clock + 1

/-- The bus and the clock after `reads` read transactions and one write transaction of `w`, all at the word of `a`
(R46, R47). -/
def AfterWrite (reads : Nat) (a w : Word) (s t : State) : Prop :=
  match s.params.realization with
  | .software => t.bus = s.bus ∧ t.clock = s.clock
  | .hardware => t.bus = ⟨a.extractLsb' 2 30, w, false⟩ ∧ t.clock = s.clock + reads + 1

/-- An instruction that writes `v` to `x[rd]`, continues at `next` and touches nothing else. -/
def Computes (o : Result) (s : State) (rd : RegIdx) (v next : Word) : Prop :=
  ∃ t, o = .next t ∧ WritesOnly rd v s t ∧ t.pc = next ∧ SameMemory s t ∧ SameContext s t ∧ NoTransaction s t

/-- An instruction that continues at `next` and touches nothing else. -/
def Continues (o : Result) (s : State) (next : Word) : Prop :=
  ∃ t, o = .next t ∧ t.pc = next ∧ SameRegs s t ∧ SameMemory s t ∧ SameContext s t ∧ NoTransaction s t

/-- A load of the word of `a` that writes `v` to `x[rd]`, continues at `pc + 4` and touches nothing else. -/
def Loads (o : Result) (s : State) (a : Word) (rd : RegIdx) (v : Word) : Prop :=
  ∃ t, o = .next t ∧ WritesOnly rd v s t ∧ t.pc = s.pc + 4 ∧ SameMemory s t ∧ SameContext s t ∧ AfterRead a s t

/-- A store of the low `n` bytes of `v` at `ea`, after `reads` reads of the containing word, whose new contents are
what the bus carries; it continues at `pc + 4` and touches nothing else. -/
def StoresTo (o : Result) (s : State) (n reads : Nat) (ea v : Word) : Prop :=
  ∃ t, o = .next t ∧ t.pc = s.pc + 4 ∧ Stores n ea v s t ∧ SameRegs s t ∧ SameContext s t ∧
    AfterWrite reads ea (Memory.readWord t.mem (ea.toNat - ea.toNat % 4)) s t

/-- The instruction takes the trap `tr`: the run state changes and nothing else (`60_exceptions.md` R225). -/
def Traps (o : Result) (s : State) (tr : Trap) : Prop := o = .next { s with run := .trapped tr }

/-! ## Addresses -/

/-- A word access at `a` is aligned and inside memory (`20_memory.md` R35). -/
abbrev WordAccessible (a : Word) (s : State) : Prop := a.toNat % 4 = 0 ∧ a.toNat + 4 ≤ s.params.memSize

/-- The word containing byte address `a` is inside memory. -/
abbrev InMemory (a : Word) (s : State) : Prop := a.toNat - a.toNat % 4 + 4 ≤ s.params.memSize

/-- The word a fetch at the program counter reads. -/
def fetchedWord (s : State) : Word := Memory.readWord s.mem s.pc.toNat

/-- The memory word that contains byte address `a`. -/
def containingWord (a : Word) (s : State) : Word := Memory.readWord s.mem (a.toNat - a.toNat % 4)

/-! ## Which words an instruction has (`30_encoding.md` R65 to R72) -/

/-- Every word with these fixed fields decodes to the R-format instruction of its fields. -/
def DecodesR (opcode : BitVec 7) (funct3 : BitVec 3) (funct7 : BitVec 7)
    (mk : RegIdx → RegIdx → RegIdx → Instr) : Prop :=
  ∀ w : Word, w.extractLsb' 0 7 = opcode → w.extractLsb' 12 3 = funct3 → w.extractLsb' 25 7 = funct7 →
    decode w = .ok (mk (w.extractLsb' 7 5) (w.extractLsb' 15 5) (w.extractLsb' 20 5))

/-- Every word with these fixed fields decodes to the I-format instruction of its fields. -/
def DecodesI (opcode : BitVec 7) (funct3 : BitVec 3) (mk : RegIdx → RegIdx → Word → Instr) : Prop :=
  ∀ w : Word, w.extractLsb' 0 7 = opcode → w.extractLsb' 12 3 = funct3 →
    decode w = .ok (mk (w.extractLsb' 7 5) (w.extractLsb' 15 5) (sext 12 (w.extractLsb' 20 12)))

/-- Every word with these fixed fields decodes to the shift-immediate of its fields. -/
def DecodesShift (opcode : BitVec 7) (funct3 : BitVec 3) (funct7 : BitVec 7)
    (mk : RegIdx → RegIdx → Word → Instr) : Prop :=
  ∀ w : Word, w.extractLsb' 0 7 = opcode → w.extractLsb' 12 3 = funct3 → w.extractLsb' 25 7 = funct7 →
    decode w = .ok (mk (w.extractLsb' 7 5) (w.extractLsb' 15 5) (sext 12 (w.extractLsb' 20 12)))

/-- Every word with these fixed fields decodes to the S-format instruction of its fields. -/
def DecodesS (opcode : BitVec 7) (funct3 : BitVec 3) (mk : RegIdx → RegIdx → Word → Instr) : Prop :=
  ∀ w : Word, w.extractLsb' 0 7 = opcode → w.extractLsb' 12 3 = funct3 →
    decode w = .ok (mk (w.extractLsb' 15 5) (w.extractLsb' 20 5)
      (sext 12 (w.extractLsb' 25 7 ++ w.extractLsb' 7 5)))

/-- Every word with these fixed fields decodes to the B-format instruction of its fields. -/
def DecodesB (opcode : BitVec 7) (funct3 : BitVec 3) (mk : RegIdx → RegIdx → Word → Instr) : Prop :=
  ∀ w : Word, w.extractLsb' 0 7 = opcode → w.extractLsb' 12 3 = funct3 →
    decode w = .ok (mk (w.extractLsb' 15 5) (w.extractLsb' 20 5)
      (sext 13 (w.extractLsb' 31 1 ++ w.extractLsb' 7 1 ++ w.extractLsb' 25 6 ++ w.extractLsb' 8 4 ++ 0#1)))

/-- Every word with this opcode decodes to the U-format instruction of its fields. -/
def DecodesU (opcode : BitVec 7) (mk : RegIdx → Word → Instr) : Prop :=
  ∀ w : Word, w.extractLsb' 0 7 = opcode → decode w = .ok (mk (w.extractLsb' 7 5) (w.extractLsb' 12 20 ++ 0#12))

/-- Every word with this opcode decodes to the J-format instruction of its fields. -/
def DecodesJ (opcode : BitVec 7) (mk : RegIdx → Word → Instr) : Prop :=
  ∀ w : Word, w.extractLsb' 0 7 = opcode →
    decode w = .ok (mk (w.extractLsb' 7 5)
      (sext 21 (w.extractLsb' 31 1 ++ w.extractLsb' 12 8 ++ w.extractLsb' 20 1 ++ w.extractLsb' 21 10 ++ 0#1)))

/-! ## Which trap a step raises (`60_exceptions.md` R224, R230) -/

/-- The trap of an access of `n` bytes at `ea`: alignment first, then range. -/
def accessTrap (n : Nat) (ea : Word) (s : State) : Option Trap :=
  if ea.toNat % n ≠ 0 then some (.accessFault .misaligned ea)
  else if s.params.memSize < ea.toNat - ea.toNat % 4 + 4 then some (.accessFault .outOfRange (wordAddr ea))
  else none

/-- The trap an instruction raises in Dispatching: the rows of R224 for that phase, "no other instruction and no
other condition". -/
def instrTrap (i : Instr) (s : State) : Option Trap :=
  match i with
  | .lb _ rs1 imm | .lbu _ rs1 imm | .sb rs1 _ imm => accessTrap 1 (readReg rs1 s + imm) s
  | .lh _ rs1 imm | .lhu _ rs1 imm | .sh rs1 _ imm => accessTrap 2 (readReg rs1 s + imm) s
  | .lw _ rs1 imm | .sw rs1 _ imm => accessTrap 4 (readReg rs1 s + imm) s
  | .ebreak => some (.breakpoint s.pc)
  | .lui _ _ | .auipc _ _ | .jal _ _ | .jalr _ _ _ => none
  | .beq _ _ _ | .bne _ _ _ | .blt _ _ _ | .bge _ _ _ | .bltu _ _ _ | .bgeu _ _ _ => none
  | .addi _ _ _ | .slti _ _ _ | .sltiu _ _ _ | .xori _ _ _ | .ori _ _ _ | .andi _ _ _ => none
  | .slli _ _ _ | .srli _ _ _ | .srai _ _ _ => none
  | .add _ _ _ | .sub _ _ _ | .sll _ _ _ | .slt _ _ _ | .sltu _ _ _ | .xor _ _ _ | .srl _ _ _ | .sra _ _ _ => none
  | .or _ _ _ | .and _ _ _ | .fence | .ecall => none

/-- The trap a step of a running core raises, in the priority order of R230: fetch, decode, dispatch. -/
def stepTrap (s : State) : Option Trap :=
  match accessTrap 4 s.pc s with
  | some tr => some tr
  | none =>
    match decode (fetchedWord s) with
    | .error _ => some (.decodeFailure (fetchedWord s))
    | .ok i    => instrTrap i s

/-! ## Where an instruction that retires continues (`40_core_cycle.md` R97) -/

/-- The program counter after an instruction retires: its target for JAL, JALR and a taken branch, else `pc + 4`. -/
def nextPc (i : Instr) (s : State) : Word :=
  match i with
  | .jal _ imm      => s.pc + imm
  | .jalr _ rs1 imm => (readReg rs1 s + imm) &&& 0xFFFFFFFE
  | .beq rs1 rs2 imm  => if readReg rs1 s = readReg rs2 s then s.pc + imm else s.pc + 4
  | .bne rs1 rs2 imm  => if readReg rs1 s ≠ readReg rs2 s then s.pc + imm else s.pc + 4
  | .blt rs1 rs2 imm  => if (readReg rs1 s).toInt < (readReg rs2 s).toInt then s.pc + imm else s.pc + 4
  | .bge rs1 rs2 imm  => if (readReg rs1 s).toInt ≥ (readReg rs2 s).toInt then s.pc + imm else s.pc + 4
  | .bltu rs1 rs2 imm => if (readReg rs1 s).toNat < (readReg rs2 s).toNat then s.pc + imm else s.pc + 4
  | .bgeu rs1 rs2 imm => if (readReg rs1 s).toNat ≥ (readReg rs2 s).toNat then s.pc + imm else s.pc + 4
  | .lui _ _ | .auipc _ _ => s.pc + 4
  | .lb _ _ _ | .lbu _ _ _ | .lh _ _ _ | .lhu _ _ _ | .lw _ _ _ | .sb _ _ _ | .sh _ _ _ | .sw _ _ _ => s.pc + 4
  | .addi _ _ _ | .slti _ _ _ | .sltiu _ _ _ | .xori _ _ _ | .ori _ _ _ | .andi _ _ _ => s.pc + 4
  | .slli _ _ _ | .srli _ _ _ | .srai _ _ _ => s.pc + 4
  | .add _ _ _ | .sub _ _ _ | .sll _ _ _ | .slt _ _ _ | .sltu _ _ _ | .xor _ _ _ | .srl _ _ _ | .sra _ _ _ => s.pc + 4
  | .or _ _ _ | .and _ _ _ | .fence | .ecall | .ebreak => s.pc + 4

/-! ## Time (`70_reset_and_hazards.md` R263, R264) -/

/-- Clock units of a retired instruction in the hardware realization, as R264 adds them up. -/
def hardwareUnits (i : Instr) (s : State) : Nat :=
  match i with
  | .lb _ _ _ | .lbu _ _ _ | .lh _ _ _ | .lhu _ _ _ | .lw _ _ _ | .sw _ _ _ => 3
  | .sb _ _ _ | .sh _ _ _ => 4
  | .ecall => 2 + Config.handlerTicks s.hostState (archRegs s)
  | .lui _ _ | .auipc _ _ | .jal _ _ | .jalr _ _ _ => 2
  | .beq _ _ _ | .bne _ _ _ | .blt _ _ _ | .bge _ _ _ | .bltu _ _ _ | .bgeu _ _ _ => 2
  | .addi _ _ _ | .slti _ _ _ | .sltiu _ _ _ | .xori _ _ _ | .ori _ _ _ | .andi _ _ _ => 2
  | .slli _ _ _ | .srli _ _ _ | .srai _ _ _ => 2
  | .add _ _ _ | .sub _ _ _ | .sll _ _ _ | .slt _ _ _ | .sltu _ _ _ | .xor _ _ _ | .srl _ _ _ | .sra _ _ _ => 2
  | .or _ _ _ | .and _ _ _ | .fence | .ebreak => 2

/-- Clock units of a retired instruction: one in the software realization (R264). -/
def clockUnits (i : Instr) (s : State) : Nat :=
  match s.params.realization with
  | .software => 1
  | .hardware => hardwareUnits i s

/-! ## The invariant -/

/-- What the run state claims about the state it stopped in holds: the trap's own condition at `pc` (R224, R225). -/
def TrapConsistent (s : State) : Prop :=
  match s.run with
  | .running => True
  | .trapped (.breakpoint p) => p = s.pc ∧ WordAccessible s.pc s ∧ decode (fetchedWord s) = .ok .ebreak
  | .trapped (.accessFault .misaligned a) => a.toNat % 4 ≠ 0
  | .trapped (.accessFault .outOfRange a) => a.toNat % 4 = 0 ∧ s.params.memSize < a.toNat + 4
  | .trapped (.decodeFailure w) =>
    w = fetchedWord s ∧ WordAccessible s.pc s ∧ decode w = .error (.unrecognizedEncoding w)

/-- The states a core can be in between steps: legal parameters (R30), memory in canonical form inside `[0, MEM_SIZE)`
(R22), a program counter that is "never odd" (R15), write-enable low (R46), and a run state that tells the truth. -/
structure Inv (s : State) : Prop where
  params : s.params.valid
  canonical : Memory.wf s.mem
  within : Memory.within s.mem s.params.memSize
  pcEven : s.pc.toNat % 2 = 0
  writeEnableLow : s.bus.we = false
  trap : TrapConsistent s

/-! ## Two cores that are the same to a program -/

/-- The same registers, program counter, run state, memory and handler: all but the realization of the port, its bus
and the clock (`20_memory.md` R48, `10_state.md` R24). -/
structure SameToProgram (s t : State) : Prop where
  cells : s.cells = t.cells
  pc : s.pc = t.pc
  run : s.run = t.run
  mem : s.mem = t.mem
  output : s.output = t.output
  hostState : s.hostState = t.hostState
  memSize : s.params.memSize = t.params.memSize
  handler : s.params.handler = t.params.handler

end Sys2Proof.Machine
end

