-- ==== Sys2Proof/WellFormed.lean ====
section
/-! DEFINITION. Which instructions the encodings can express: every register index is expressible, and each format
bounds its immediate (`30_encoding.md` R66 to R71). -/

namespace Sys2Proof

/-- The immediate is one its format can deliver. -/
def Instr.wellFormed : Instr → Bool
  | .lui _ imm | .auipc _ imm => fitsU imm
  | .jal _ imm => fitsJ imm
  | .beq _ _ imm | .bne _ _ imm | .blt _ _ imm | .bge _ _ imm | .bltu _ _ imm | .bgeu _ _ imm => fitsB imm
  | .jalr _ _ imm => fits12 imm
  | .lb _ _ imm | .lh _ _ imm | .lw _ _ imm | .lbu _ _ imm | .lhu _ _ imm => fits12 imm
  | .sb _ _ imm | .sh _ _ imm | .sw _ _ imm => fits12 imm
  | .addi _ _ imm | .slti _ _ imm | .sltiu _ _ imm | .xori _ _ imm | .ori _ _ imm | .andi _ _ imm => fits12 imm
  | .slli _ _ imm | .srli _ _ imm => fitsShift imm
  | .srai _ _ imm => fitsSrai imm
  | .add _ _ _ | .sub _ _ _ | .sll _ _ _ | .slt _ _ _ | .sltu _ _ _ | .xor _ _ _ | .srl _ _ _ | .sra _ _ _
  | .or _ _ _ | .and _ _ _ => true
  | .fence | .ecall | .ebreak => true

/-- The instruction is one some word encodes. -/
abbrev Instr.WellFormed (i : Instr) : Prop := i.wellFormed = true

end Sys2Proof
end

