-- ==== Sys2Proof/Certificates/Slice0/Obligations.lean ====
section
/-! DEFINITION. The statements about the model, from the numbered rules of `spec/`. The words they use
(`Computes`, `Loads`, `StoresTo`, `Traps`, `stepTrap`, `Inv`, …) are in `Sys2Proof/Safety.lean`. -/

open Sys2Proof Sys2Proof.Machine

/-! ## Encoding -/

/-- Decode and encode agree: every well-formed instruction is read back from its word. -/
def Obligations.EncodedInstructionDecodesBack : Prop :=
  ∀ i : Instr, i.WellFormed → decode (encode i) = .ok i

/-- What the decoder delivers is well formed, and writing it again gives the same word, but for FENCE, whose fields
are ignored. -/
def Obligations.DecodedWordReencodes : Prop :=
  ∀ (w : Word) (i : Instr), decode w = .ok i → i.WellFormed ∧ (i ≠ .fence → encode i = w)

/-- R74: the decoder takes the row whose masked pattern the word matches, which is the only one, and fills the record
from the fixed field places; a word no row matches is a decode failure. That `rd`, `rs1` and `rs2` are filled for every
word is the spec's decision D14 (log 24), that a shift gets the whole I-immediate its decision D12, and the rows are the
spec's general knowledge (log 15). -/
def Obligations.DecoderTakesTheOneMatchingRow : Prop :=
  (∀ (w : Word) (k q : Kind), w &&& k.row.mask = k.row.pattern → w &&& q.row.mask = q.row.pattern → k = q) ∧
  (∀ (w : Word) (k : Kind), w &&& k.row.mask = k.row.pattern →
    decodeRecord w = .ok { kind := k, rd := w.extractLsb' 7 5, rs1 := w.extractLsb' 15 5,
                           rs2 := w.extractLsb' 20 5, imm := immediate k.row.format w }) ∧
  (∀ w : Word, (∀ k : Kind, w &&& k.row.mask ≠ k.row.pattern) → ∃ f, decodeRecord w = .error f)

/-- R75: a word is FENCE exactly when its opcode is 0001111 and its funct3 000, whatever its other fields, the
FENCE.TSO and PAUSE patterns included, and all of them are the same no-op. -/
def Obligations.FenceIgnoresItsFields : Prop :=
  (∀ w : Word, decode w = .ok .fence ↔ w.extractLsb' 0 7 = 0b0001111#7 ∧ w.extractLsb' 12 3 = 0b000#3) ∧
  decode 0x8330000F = .ok .fence ∧ decode 0x0100000F = .ok .fence ∧
  (∀ s : State, Continues (exec .fence s) s (s.pc + 4))

/-- R76: ECALL and EBREAK are one word each; any other word with opcode 1110011 is a decode failure. -/
def Obligations.EcallAndEbreakAreSingleWords : Prop :=
  (∀ w : Word, decode w = .ok .ecall ↔ w = 0x00000073) ∧
  (∀ w : Word, decode w = .ok .ebreak ↔ w = 0x00100073) ∧
  (∀ w : Word, w.extractLsb' 0 7 = 0b1110011#7 → w ≠ 0x00000073 → w ≠ 0x00100073 →
    decode w = .error (.unrecognizedEncoding w))

/-- R77: a word that matches no row is a decode failure, in particular every word with `inst[1:0] != 11`, `0x00000000`,
`0xFFFFFFFF` and every word whose major opcode is not in use, and fetching it raises the DecodeFailure trap with no
register, `pc` or memory changed. The rows are the spec's general knowledge (log 15), and that the run state keeps the
offending word is its decision D7 (log 13). -/
def Obligations.UnlistedWordsTrap : Prop :=
  (∀ w : Word, (∀ k : Kind, w &&& k.row.mask ≠ k.row.pattern) → decode w = .error (.unrecognizedEncoding w)) ∧
  (∀ w : Word, w.extractLsb' 0 2 ≠ 0b11#2 → decode w = .error (.unrecognizedEncoding w)) ∧
  decode 0x00000000 = .error (.unrecognizedEncoding 0x00000000) ∧
  decode 0xFFFFFFFF = .error (.unrecognizedEncoding 0xFFFFFFFF) ∧
  (∀ w : Word, w.extractLsb' 0 7 ∉ [0b0000011#7, 0b0001111#7, 0b0010011#7, 0b0010111#7, 0b0100011#7, 0b0110011#7,
      0b0110111#7, 0b1100011#7, 0b1100111#7, 0b1101111#7, 0b1110011#7] →
    decode w = .error (.unrecognizedEncoding w)) ∧
  (∀ s : State, s.run = .running → WordAccessible s.pc s →
    (∀ k : Kind, fetchedWord s &&& k.row.mask ≠ k.row.pattern) →
    ∃ t, step s = .next t ∧ t.run = .trapped (.decodeFailure (fetchedWord s)) ∧ t.cells = s.cells ∧ t.pc = s.pc ∧
      SameMemory s t)

/-- R78: the illegal words inside the major opcodes in use. -/
def Obligations.IllegalFieldsInsideMajorOpcodes : Prop :=
  ∀ w : Word,
    (w.extractLsb' 0 7 = 0b0000011#7 ∧ w.extractLsb' 12 3 ∈ [0b011#3, 0b110#3, 0b111#3]) ∨
    (w.extractLsb' 0 7 = 0b0100011#7 ∧ w.extractLsb' 12 3 ∈ [0b011#3, 0b100#3, 0b101#3, 0b110#3, 0b111#3]) ∨
    (w.extractLsb' 0 7 = 0b1100011#7 ∧ w.extractLsb' 12 3 ∈ [0b010#3, 0b011#3]) ∨
    (w.extractLsb' 0 7 = 0b1100111#7 ∧ w.extractLsb' 12 3 ≠ 0b000#3) ∨
    (w.extractLsb' 0 7 = 0b0010011#7 ∧ w.extractLsb' 12 3 = 0b001#3 ∧ w.extractLsb' 25 7 ≠ 0b0000000#7) ∨
    (w.extractLsb' 0 7 = 0b0010011#7 ∧ w.extractLsb' 12 3 = 0b101#3 ∧
      w.extractLsb' 25 7 ∉ [0b0000000#7, 0b0100000#7]) ∨
    (w.extractLsb' 0 7 = 0b0110011#7 ∧ w.extractLsb' 25 7 ≠ 0b0000000#7 ∧
      (w.extractLsb' 25 7, w.extractLsb' 12 3) ∉ [(0b0100000#7, 0b000#3), (0b0100000#7, 0b101#3)]) ∨
    (w.extractLsb' 0 7 = 0b0001111#7 ∧ w.extractLsb' 12 3 ≠ 0b000#3) ∨
    (w.extractLsb' 0 7 = 0b1110011#7 ∧ w ≠ 0x00000073 ∧ w ≠ 0x00100073) →
    decode w = .error (.unrecognizedEncoding w)

/-- R66 to R71: the number the delivered immediate is, per format of the row that matches the word. -/
def Obligations.ImmediatesAreAssembledPerFormat : Prop :=
  ∀ (w : Word) (k : Kind), w &&& k.row.mask = k.row.pattern → ∃ r, decodeRecord w = .ok r ∧ r.kind = k ∧
    match k.row.format with
    | .i | .iShift => r.imm.toInt = (w.extractLsb' 20 12).toInt
    | .s => r.imm.toInt = (w.extractLsb' 25 7 ++ w.extractLsb' 7 5).toInt
    | .b => r.imm.toInt = 2 * (w.extractLsb' 31 1 ++ w.extractLsb' 7 1 ++ w.extractLsb' 25 6 ++ w.extractLsb' 8 4).toInt
    | .u => r.imm.toNat = 4096 * (w.extractLsb' 12 20).toNat
    | .j => r.imm.toInt =
        2 * (w.extractLsb' 31 1 ++ w.extractLsb' 12 8 ++ w.extractLsb' 20 1 ++ w.extractLsb' 21 10).toInt
    | .r | .iIgnored | .iFixed => r.imm = 0

/-- Words written out from the spec's encodings decode to the instructions they stand for (`95_test_vectors.md`,
V-DEC). -/
def Obligations.SpecWordsDecode : Prop :=
  decode 0x80000093 = .ok (.addi 1 0 0xFFFFF800) ∧ decode 0x81F0A023 = .ok (.sw 1 31 0xFFFFF800) ∧
  decode 0x7E208FE3 = .ok (.beq 1 2 0x00000FFE) ∧ decode 0x7FFFF0EF = .ok (.jal 1 0x000FFFFE) ∧
  decode 0x80000097 = .ok (.auipc 1 0x80000000) ∧ decode 0x41F2D313 = .ok (.srai 6 5 0x0000041F) ∧
  decode 0xFFC280E7 = .ok (.jalr 1 5 0xFFFFFFFC) ∧ decode 0x7FF2A303 = .ok (.lw 6 5 0x000007FF) ∧
  decode 0x406283B3 = .ok (.sub 7 5 6)

/-! ## The step -/

/-- R99: in a running core whose program counter can be fetched from, a word that decodes is executed, in the state
that the fetch, the clock unit and the clearing of register 0 leave, where every register reads, and everything but
the bus and the clock is, as before. -/
def Obligations.StepRunsTheDecodedInstruction : Prop :=
  ∀ (s : State) (i : Instr), s.run = .running → WordAccessible s.pc s → decode (fetchedWord s) = .ok i →
    ∃ d : State, step s = exec i d ∧ d.cells = s.cells.set 0 0 ∧ SameRegs s d ∧ d.pc = s.pc ∧ d.mem = s.mem ∧
      SameContext s d ∧
      (match s.params.realization with
       | .software => d.bus = s.bus ∧ d.clock = s.clock + 1
       | .hardware => d.bus = ⟨s.pc.extractLsb' 2 30, s.bus.wdata, false⟩ ∧ d.clock = s.clock + 2)

/-- R92: Fetching checks alignment, then range; a bad program counter ends the step in AccessFault with nothing else
changed, and a good one is one port read of the word at `pc`, which changes no register, memory or run state. -/
def Obligations.FetchChecksThenReads : Prop :=
  (∀ s : State, s.run = .running → s.pc.toNat % 4 ≠ 0 → Traps (step s) s (.accessFault .misaligned s.pc)) ∧
  (∀ s : State, s.run = .running → s.pc.toNat % 4 = 0 → s.params.memSize < s.pc.toNat + 4 →
    Traps (step s) s (.accessFault .outOfRange s.pc)) ∧
  (∀ s : State, WordAccessible s.pc s → ∃ t, fetch s = .ok (fetchedWord s) t ∧ t.cells = s.cells ∧ t.pc = s.pc ∧
    t.mem = s.mem ∧ SameContext s t ∧ AfterRead s.pc s t)

/-- R93: Decoding hands a word that decodes on to its instruction, with no memory and no register an instruction can read
changed; a decode failure ends the step in the trap with registers and memory as before, and `pc` at the offending word
(D18). That the run state keeps that word is the spec's decision D7 (log 13). -/
def Obligations.DecodingContinuesOrTraps : Prop :=
  (∀ (s : State) (i : Instr), s.run = .running → WordAccessible s.pc s → decode (fetchedWord s) = .ok i →
    ∃ d, step s = exec i d ∧ SameRegs s d ∧ d.mem = s.mem ∧ d.pc = s.pc ∧ d.run = .running) ∧
  (∀ (s : State) (f : DecodeFailure), s.run = .running → WordAccessible s.pc s → decode (fetchedWord s) = .error f →
    ∃ t, step s = .next t ∧ t.run = .trapped (.decodeFailure (fetchedWord s)) ∧ t.cells = s.cells ∧ t.pc = s.pc ∧
      t.mem = s.mem ∧ t.output = s.output ∧ t.hostState = s.hostState ∧ t.params = s.params)

/-- R90: "A step either completes (the instruction retires) or ends in a trap; there is no third outcome": from every
state a step answers a next state. -/
def Obligations.EveryStepAnswersANextState : Prop :=
  ∀ s : State, ∃ t, step s = .next t ∧ (s.run = .running → t.run = .running ∨ ∃ tr, t.run = .trapped tr ∧ t.pc = s.pc)

/-- R224, R230: a running core's step raises exactly the trap the table gives, with the diagnostic the model keeps (the
spec's decision D7, log 13), and no other instruction and no other condition raises one. The out-of-range rows and the
order of the checks rest on D4 and D5 (log 11), the fetch of a misaligned `pc` on D6 (log 12), SH's alignment on D21
(log 16), a load to register 0 on D25 (log 27). -/
def Obligations.StepTrapsExactlyAsTabled : Prop :=
  ∀ s : State, s.run = .running → ∃ t, step s = .next t ∧
    t.run = (match stepTrap s with
      | some tr => .trapped tr
      | none => .running)

/-- R98: a step traps at one of the three points (`stepTrap`: the fetch, the decode, the dispatch; the diagnostic kept with
the trap is D7, log 13, and the conditions rest on logs 11, 12 and 16 as the table of causes does), and leaves the
program counter (D18), every register as it reads, memory, the output and the parameters as they were before the
instruction began; the raw cell of register 0 is the only storage it may have cleared (D17, log 10). -/
def Obligations.TrappingStepIsPrecise : Prop :=
  ∀ (s t : State) (tr : Trap), s.run = .running → step s = .next t → t.run = .trapped tr →
    stepTrap s = some tr ∧ t.pc = s.pc ∧ SameRegs s t ∧ (t.cells = s.cells ∨ t.cells = s.cells.set 0 0) ∧
      t.mem = s.mem ∧ t.output = s.output ∧ t.hostState = s.hostState ∧ t.params = s.params

/-- R226: `Trapped` is terminal for every trap: however many steps are taken, nothing changes but the clock, which keeps
counting. -/
def Obligations.TrappedIsTerminal : Prop :=
  ∀ (s : State) (tr : Trap) (n : Nat), s.run = .trapped tr →
    ∃ c, s.clock + n ≤ c ∧ Host.Core.run Sys2Proof.core n s = .next { s with clock := c }

/-- R97, R167: an instruction that retires leaves `pc + 4`, but for a taken branch, JAL and JALR, which leave exactly their
target, with no check of it. That JALR's target is made of the old `x[rs1]` where `rd = rs1` is the spec's decision D8
(log 14), and that the sums wrap its decision D22 (log 23). -/
def Obligations.RetiringCommitsTheNextPc : Prop :=
  ∀ (i : Instr) (s t : State), s.run = .running → exec i s = .next t → t.run = .running → t.pc = nextPc i s

/-- Every step keeps the invariant: legal parameters, memory canonical and inside `[0, MEM_SIZE)`, a program counter
that is never odd, write-enable low, and a trap whose condition holds where the core stopped. -/
def Obligations.EveryStepKeepsTheInvariant : Prop :=
  ∀ s t : State, Inv s → step s = .next t → Inv t

/-- The state after reset meets the invariant. Its `MEM_SIZE` is the model's choice (log 1). -/
def Obligations.ResetMeetsTheInvariant : Prop := Inv State.reset

/-- Every core that starts, from any setup, meets the invariant. -/
def Obligations.BootedCoreMeetsTheInvariant : Prop :=
  ∀ (b : BootSetup) (s : State), State.boot b = some s → Inv s

/-- R251, R252, R255: register 0 reads 0, register 2 is `MEM_SIZE mod 2^32`, a multiple of 4, and the core is running, for every
setup that starts. -/
def Obligations.ResetGivesTheStatedValues : Prop :=
  ∀ (b : BootSetup) (s : State), State.boot b = some s →
    readReg 0 s = 0 ∧ (readReg 2 s).toNat = b.params.memSize % 2 ^ 32 ∧ (readReg 2 s).toNat % 4 = 0 ∧
    s.run = .running

/-- R253, R254: the program counter starts at `RESET_PC = 0` (the spec's decision D1) and the registers the source says
nothing of are `XINIT`, any values (D2); nothing is put out yet, and the parameters are the setup's. -/
def Obligations.ResetLeavesTheRestToTheSetup : Prop :=
  ∀ (b : BootSetup) (s : State), State.boot b = some s →
    s.pc = 0x00000000 ∧ (∀ i : RegIdx, i ≠ 0 → i ≠ 2 → readReg i s = b.xinit[i.toNat]'i.isLt) ∧
    s.params = b.params ∧ s.hostState = b.hostState ∧ s.output = []

/-- R257: "image byte `k` becoming the byte at address `k`", little-endian in the words; beyond the image memory is
`MEMINIT`, whatever the setup lists: the last cell listed for an address is what it reads, and an address nothing is
listed for reads as the model's `unlistedByte` (log 4); an image larger than the memory never starts. -/
def Obligations.ImageIsLoadedFromAddressZero : Prop :=
  (∀ (b : BootSetup) (s : State), State.boot b = some s →
    (∀ (k : Nat) (h : k < b.image.length), Memory.readByte s.mem k = b.image[k]) ∧
    (∀ k : Nat, b.image.length ≤ k → k < b.params.memSize → Memory.readByte s.mem k =
      match b.memInit.reverse.find? (fun c => c.1 == k) with
      | some c => c.2
      | none   => unlistedByte) ∧
    (∀ k : Nat, b.params.memSize ≤ k → Memory.readByte s.mem k = unlistedByte) ∧
    (∀ (a : Nat) (h : a + 3 < b.image.length), (Memory.readWord s.mem a).toNat =
      b.image[a].toNat + b.image[a + 1].toNat * 2 ^ 8 + b.image[a + 2].toNat * 2 ^ 16 + b.image[a + 3].toNat * 2 ^ 24)) ∧
  (∀ b : BootSetup, b.params.memSize < b.image.length → State.boot b = none) ∧
  (∀ b : BootSetup, b.params.valid → b.image.length ≤ b.params.memSize → ∃ s, State.boot b = some s)

/-- The two realizations of the Memory Port are the same to a program: cores that differ only in realization, bus and
clock take the same step and still do. -/
def Obligations.RealizationsAreTheSameToAProgram : Prop :=
  ∀ s t : State, SameToProgram s t →
    ∃ s' t', step s = .next s' ∧ step t = .next t' ∧ SameToProgram s' t'

/-- R12: a write stores the value, and to register 0 it has no effect anyone can see and raises no trap; a step writes at
most one register, but for an ECALL, and a trapping step writes none. -/
def Obligations.StepWritesAtMostOneRegister : Prop :=
  (∀ (s : State) (i : RegIdx) (v : Word), (writeReg i v s).cells[i.toNat]'i.isLt = v ∧
    (i ≠ 0 → readReg i (writeReg i v s) = v) ∧ ∀ j : RegIdx, j ≠ i → readReg j (writeReg i v s) = readReg j s) ∧
  (∀ (s : State) (v : Word), SameRegs s (writeReg 0 v s) ∧ (writeReg 0 v s).run = s.run) ∧
  (∀ s t : State, step s = .next t → s.run = .running → decode (fetchedWord s) ≠ .ok .ecall →
    ∃ rd : RegIdx, ∀ i : RegIdx, i ≠ rd → readReg i t = readReg i s) ∧
  (∀ s t : State, ∀ tr : Trap, step s = .next t → t.run = .trapped tr → SameRegs s t)

/-- Memory changes only where a store stores: a step that changes a byte executed SB, SH or SW, and the byte lies in
the bytes it stores to. -/
def Obligations.MemoryChangesOnlyWhereAStoreStores : Prop :=
  ∀ (s t : State) (a : Nat), Memory.wf s.mem → s.run = .running → step s = .next t →
    Memory.readByte t.mem a ≠ Memory.readByte s.mem a →
    ∃ (rs1 rs2 : RegIdx) (imm : Word) (n : Nat),
      (decode (fetchedWord s) = .ok (.sb rs1 rs2 imm) ∧ n = 1 ∨ decode (fetchedWord s) = .ok (.sh rs1 rs2 imm) ∧ n = 2 ∨
        decode (fetchedWord s) = .ok (.sw rs1 rs2 imm) ∧ n = 4) ∧
      (effectiveAddress rs1 imm s).toNat ≤ a ∧ a < (effectiveAddress rs1 imm s).toNat + n

/-- No step changes the parameters, and only ECALL reaches the handler: every other step leaves the handler's output
and private state alone. -/
def Obligations.OnlyEcallReachesTheHandler : Prop :=
  (∀ s t : State, step s = .next t → t.params = s.params) ∧
  (∀ s t : State, step s = .next t → s.run = .running → decode (fetchedWord s) ≠ .ok .ecall →
    t.output = s.output ∧ t.hostState = s.hostState)

/-- A jump to itself is "an endless loop that is not a trap": however many steps are taken the core stays running at
the same address with the same registers. -/
def Obligations.JumpToItselfNeverTraps : Prop :=
  ∀ (s : State) (n : Nat), s.run = .running → WordAccessible s.pc s → fetchedWord s = 0x0000006F →
    ∃ t, Host.Core.run Sys2Proof.core n s = .next t ∧ t.run = .running ∧ t.pc = s.pc ∧ SameRegs s t ∧ t.mem = s.mem

/-! ## Memory -/

/-- R32: "writing a word `w` to aligned address `a` and immediately reading word `a` returns exactly `w`", and no other
word changes. -/
def Obligations.PortRoundTrip : Prop :=
  ∀ (a w : Word) (s : State), Memory.wf s.mem → WordAccessible a s →
    ∃ t, portWrite a w s = .ok () t ∧ (∃ u, portRead a t = .ok w u ∧ u.mem = t.mem) ∧
      (∀ b : Word, WordAccessible b s → b ≠ a → Memory.readWord t.mem b.toNat = Memory.readWord s.mem b.toNat)

/-- R45, R46: the port's transactions on the bus of the hardware realization. A read drives the word address with
write-enable low, lets one clock unit pass and answers the word there. A write drives address, data and write-enable,
lets one clock unit pass while they are driven (`d`), and then lowers write-enable and changes nothing else. The
software realization has no bus and takes no time (R44, R264). Names and widths of the signals are the spec's decision
D20, the counting of the unit is log 8, and that `d` is no state of its own is log 26. -/
def Obligations.PortTransactionsDriveTheBus : Prop :=
  ∀ (a w : Word) (s : State), WordAccessible a s →
    (∃ t, portRead a s = .ok (Memory.readWord s.mem a.toNat) t ∧ AfterRead a s t ∧ t.mem = s.mem ∧ t.cells = s.cells ∧
      t.pc = s.pc ∧ SameContext s t) ∧
    (∃ t, portWrite a w s = .ok () t ∧ AfterWrite 0 a w s t ∧ t.cells = s.cells ∧ t.pc = s.pc ∧ SameContext s t ∧
      (s.params.realization = .hardware → ∃ d,
        d = tick 1 (driveWrite a w { s with mem := Memory.writeWord s.mem a.toNat w }) ∧
        d.bus = ⟨a.extractLsb' 2 30, w, true⟩ ∧ d.clock = s.clock + 1 ∧ t = releaseWrite d ∧
        t = { d with bus := ⟨a.extractLsb' 2 30, w, false⟩ }))

/-- R35: every word access checks alignment first, then range, and touches the port only when both hold. -/
def Obligations.WordAccessChecksAlignmentThenRange : Prop :=
  (∀ (a : Word) (s : State), a.toNat % 4 ≠ 0 →
    wordRead a s = .trap (.accessFault .misaligned a) ∧
    ∀ w, wordWrite a w s = .trap (.accessFault .misaligned a)) ∧
  (∀ (a : Word) (s : State), a.toNat % 4 = 0 → a.toNat + 4 > s.params.memSize →
    wordRead a s = .trap (.accessFault .outOfRange a) ∧
    ∀ w, wordWrite a w s = .trap (.accessFault .outOfRange a)) ∧
  (∀ (a : Word) (s : State), a.toNat % 4 = 0 → a.toNat + 4 ≤ s.params.memSize →
    wordRead a s = portRead a s ∧ ∀ w, wordWrite a w s = portWrite a w s)

/-- R41: "writing byte value `v` at address `a` then reading the containing word at `a & ~3` reproduces `v` at bit offset
`8*(a&3)` with all other bits of that word unchanged", after one read and one write of that word; a byte write has no
alignment requirement, and only the range check can fail (the spec's decision D4, log 11). The bus lines are its
decision D20, the clock units log 8. -/
def Obligations.ByteWriteReplacesOneLane : Prop :=
  (∀ (a v : Word) (s : State), Memory.wf s.mem → InMemory a s →
    ∃ t, memWriteByte a v s = .ok () t ∧ t.cells = s.cells ∧ t.pc = s.pc ∧ SameContext s t ∧
      (∀ i < 32, (containingWord a t).getLsbD i =
        if 8 * (a.toNat % 4) ≤ i ∧ i < 8 * (a.toNat % 4) + 8 then v.getLsbD (i - 8 * (a.toNat % 4))
        else (containingWord a s).getLsbD i) ∧
      AfterWrite 1 a (containingWord a t) s t) ∧
  (∀ (a v : Word) (s : State), ¬ InMemory a s → memWriteByte a v s = .trap (.accessFault .outOfRange (a &&& ~~~3)))

/-- R42: the core is little-endian: after a word is stored, byte `k` of it is read at address `a + k`, and its halfwords
are read at `a` and `a + 2`. -/
def Obligations.MixedWidthAccessesAreLittleEndian : Prop :=
  ∀ (a w : Word) (s : State), Memory.wf s.mem → s.params.valid → WordAccessible a s →
    ∃ t, memWriteWord a w s = .ok () t ∧
      (∀ k : Nat, k < 4 → ∃ u, memReadByte (a + BitVec.ofNat 32 k) t = .ok (w.extractLsb' (8 * k) 8) u) ∧
      (∃ u, memReadHalf a t = .ok (w.extractLsb' 0 16) u) ∧ (∃ u, memReadHalf (a + 2) t = .ok (w.extractLsb' 16 16) u)

/-- R52: a store is seen by the fetch of the very next instruction, with no fence between them. -/
def Obligations.StoreIsSeenByTheNextFetch : Prop :=
  ∀ (rs1 rs2 : RegIdx) (imm : Word) (s : State), Memory.wf s.mem → WordAccessible (s.pc + 4) s →
    effectiveAddress rs1 imm s = s.pc + 4 →
    ∃ t, exec (.sw rs1 rs2 imm) s = .next t ∧ t.pc = s.pc + 4 ∧ ∃ u, fetch t = .ok (readReg rs2 s) u

/-! ## Upper immediates, arithmetic and logic -/

/-- R141, R142: LUI and AUIPC, by word and by effect. -/
def Obligations.UpperImmediates : Prop :=
  DecodesU 0b0110111#7 .lui ∧
  (∀ (rd : RegIdx) (imm : Word) (s : State), Computes (exec (.lui rd imm) s) s rd imm (s.pc + 4)) ∧
  DecodesU 0b0010111#7 .auipc ∧
  (∀ (rd : RegIdx) (imm : Word) (s : State), Computes (exec (.auipc rd imm) s) s rd (s.pc + imm) (s.pc + 4))

/-- R111 to R116: the register-immediate arithmetic, comparisons and logic, by word and by effect. -/
def Obligations.AluImmediates : Prop :=
  DecodesI 0b0010011#7 0b000#3 .addi ∧ DecodesI 0b0010011#7 0b010#3 .slti ∧ DecodesI 0b0010011#7 0b011#3 .sltiu ∧
  DecodesI 0b0010011#7 0b100#3 .xori ∧ DecodesI 0b0010011#7 0b110#3 .ori ∧ DecodesI 0b0010011#7 0b111#3 .andi ∧
  ∀ (rd rs1 : RegIdx) (imm : Word) (s : State),
    Computes (exec (.addi rd rs1 imm) s) s rd (readReg rs1 s + imm) (s.pc + 4) ∧
    Computes (exec (.slti rd rs1 imm) s) s rd (if (readReg rs1 s).toInt < imm.toInt then 1 else 0) (s.pc + 4) ∧
    Computes (exec (.sltiu rd rs1 imm) s) s rd (if (readReg rs1 s).toNat < imm.toNat then 1 else 0) (s.pc + 4) ∧
    Computes (exec (.xori rd rs1 imm) s) s rd (readReg rs1 s ^^^ imm) (s.pc + 4) ∧
    Computes (exec (.ori rd rs1 imm) s) s rd (readReg rs1 s ||| imm) (s.pc + 4) ∧
    Computes (exec (.andi rd rs1 imm) s) s rd (readReg rs1 s &&& imm) (s.pc + 4)

/-- R117 to R119: the immediate shifts; the distance is the low five bits of the immediate, a number modulo 32, the
arithmetic shift rounds toward minus infinity, and a left shift with another funct7 never reaches dispatch. The funct7
verdict and the delivery of the whole I-immediate are the spec's decision D12 (log 15). -/
def Obligations.ShiftImmediates : Prop :=
  DecodesShift 0b0010011#7 0b001#3 0b0000000#7 .slli ∧ DecodesShift 0b0010011#7 0b101#3 0b0000000#7 .srli ∧
  DecodesShift 0b0010011#7 0b101#3 0b0100000#7 .srai ∧
  (∀ w : Word, w.extractLsb' 0 7 = 0b0010011#7 → w.extractLsb' 12 3 = 0b001#3 → w.extractLsb' 25 7 ≠ 0b0000000#7 →
    ∃ f, decode w = .error f) ∧
  ∀ (rd rs1 : RegIdx) (imm : Word) (s : State),
    Computes (exec (.slli rd rs1 imm) s) s rd
      (BitVec.ofNat 32 ((readReg rs1 s).toNat * 2 ^ (imm.toNat % 32))) (s.pc + 4) ∧
    Computes (exec (.srli rd rs1 imm) s) s rd
      (BitVec.ofNat 32 ((readReg rs1 s).toNat / 2 ^ (imm.toNat % 32))) (s.pc + 4) ∧
    Computes (exec (.srai rd rs1 imm) s) s rd
      (BitVec.ofInt 32 ((readReg rs1 s).toInt / 2 ^ (imm.toNat % 32))) (s.pc + 4)

/-- R120, R121, R123 to R125, R128, R129: the register-register arithmetic, comparisons and logic, by word and by
effect. -/
def Obligations.AluRegisters : Prop :=
  DecodesR 0b0110011#7 0b000#3 0b0000000#7 .add ∧ DecodesR 0b0110011#7 0b000#3 0b0100000#7 .sub ∧
  DecodesR 0b0110011#7 0b010#3 0b0000000#7 .slt ∧ DecodesR 0b0110011#7 0b011#3 0b0000000#7 .sltu ∧
  DecodesR 0b0110011#7 0b100#3 0b0000000#7 .xor ∧ DecodesR 0b0110011#7 0b110#3 0b0000000#7 .or ∧
  DecodesR 0b0110011#7 0b111#3 0b0000000#7 .and ∧
  ∀ (rd rs1 rs2 : RegIdx) (s : State),
    Computes (exec (.add rd rs1 rs2) s) s rd
      (BitVec.ofNat 32 ((readReg rs1 s).toNat + (readReg rs2 s).toNat)) (s.pc + 4) ∧
    Computes (exec (.sub rd rs1 rs2) s) s rd
      (BitVec.ofInt 32 ((readReg rs1 s).toInt - (readReg rs2 s).toInt)) (s.pc + 4) ∧
    Computes (exec (.slt rd rs1 rs2) s) s rd
      (if (readReg rs1 s).toInt < (readReg rs2 s).toInt then 1 else 0) (s.pc + 4) ∧
    Computes (exec (.sltu rd rs1 rs2) s) s rd
      (if (readReg rs1 s).toNat < (readReg rs2 s).toNat then 1 else 0) (s.pc + 4) ∧
    Computes (exec (.xor rd rs1 rs2) s) s rd (readReg rs1 s ^^^ readReg rs2 s) (s.pc + 4) ∧
    Computes (exec (.or rd rs1 rs2) s) s rd (readReg rs1 s ||| readReg rs2 s) (s.pc + 4) ∧
    Computes (exec (.and rd rs1 rs2) s) s rd (readReg rs1 s &&& readReg rs2 s) (s.pc + 4)

/-- R122, R126, R127: the register shifts, "shift distance modulo 32". -/
def Obligations.ShiftRegisters : Prop :=
  DecodesR 0b0110011#7 0b001#3 0b0000000#7 .sll ∧ DecodesR 0b0110011#7 0b101#3 0b0000000#7 .srl ∧
  DecodesR 0b0110011#7 0b101#3 0b0100000#7 .sra ∧
  ∀ (rd rs1 rs2 : RegIdx) (s : State),
    Computes (exec (.sll rd rs1 rs2) s) s rd
      (BitVec.ofNat 32 ((readReg rs1 s).toNat * 2 ^ ((readReg rs2 s).toNat % 32))) (s.pc + 4) ∧
    Computes (exec (.srl rd rs1 rs2) s) s rd
      (BitVec.ofNat 32 ((readReg rs1 s).toNat / 2 ^ ((readReg rs2 s).toNat % 32))) (s.pc + 4) ∧
    Computes (exec (.sra rd rs1 rs2) s) s rd
      (BitVec.ofInt 32 ((readReg rs1 s).toInt / 2 ^ ((readReg rs2 s).toNat % 32))) (s.pc + 4)

/-- R79: an OP or OP-IMM instruction with `rd = x0`, a hint elsewhere, is a no-op that still advances `pc` by 4. -/
def Obligations.HintsAreNoOps : Prop :=
  ∀ (s : State) (rs1 rs2 : RegIdx) (imm : Word),
    ∀ i ∈ [Instr.addi 0 rs1 imm, .slti 0 rs1 imm, .sltiu 0 rs1 imm, .xori 0 rs1 imm, .ori 0 rs1 imm, .andi 0 rs1 imm,
        .slli 0 rs1 imm, .srli 0 rs1 imm, .srai 0 rs1 imm, .add 0 rs1 rs2, .sub 0 rs1 rs2, .sll 0 rs1 rs2,
        .slt 0 rs1 rs2, .sltu 0 rs1 rs2, .xor 0 rs1 rs2, .srl 0 rs1 rs2, .sra 0 rs1 rs2, .or 0 rs1 rs2, .and 0 rs1 rs2],
      Continues (exec i s) s (s.pc + 4)

/-- R83: the expansion of `li rd, imm` for any 32-bit value: LUI of the upper part plus `0x800`, then ADDI of the
sign-extended low 12 bits, leaves the value in `rd`. -/
def Obligations.LoadImmediateExpansion : Prop :=
  ∀ (rd : RegIdx) (imm : Word) (s : State), rd ≠ 0 →
    ∃ t u, exec (.lui rd ((imm + 0x800).extractLsb' 12 20 ++ 0#12)) s = .next t ∧
      exec (.addi rd rd (sext 12 (imm.extractLsb' 0 12))) t = .next u ∧ readReg rd u = imm ∧ u.pc = s.pc + 8

/-! ## Branches and jumps -/

/-- R151 to R156: each branch, by word and by effect: taken to `pc + imm` when its comparison holds, else to `pc + 4`;
nothing else changes. -/
def Obligations.ConditionalBranches : Prop :=
  DecodesB 0b1100011#7 0b000#3 .beq ∧ DecodesB 0b1100011#7 0b001#3 .bne ∧ DecodesB 0b1100011#7 0b100#3 .blt ∧
  DecodesB 0b1100011#7 0b101#3 .bge ∧ DecodesB 0b1100011#7 0b110#3 .bltu ∧ DecodesB 0b1100011#7 0b111#3 .bgeu ∧
  ∀ (rs1 rs2 : RegIdx) (imm : Word) (s : State),
    Continues (exec (.beq rs1 rs2 imm) s) s (if readReg rs1 s = readReg rs2 s then s.pc + imm else s.pc + 4) ∧
    Continues (exec (.bne rs1 rs2 imm) s) s (if readReg rs1 s ≠ readReg rs2 s then s.pc + imm else s.pc + 4) ∧
    Continues (exec (.blt rs1 rs2 imm) s) s
      (if (readReg rs1 s).toInt < (readReg rs2 s).toInt then s.pc + imm else s.pc + 4) ∧
    Continues (exec (.bge rs1 rs2 imm) s) s
      (if (readReg rs1 s).toInt ≥ (readReg rs2 s).toInt then s.pc + imm else s.pc + 4) ∧
    Continues (exec (.bltu rs1 rs2 imm) s) s
      (if (readReg rs1 s).toNat < (readReg rs2 s).toNat then s.pc + imm else s.pc + 4) ∧
    Continues (exec (.bgeu rs1 rs2 imm) s) s
      (if (readReg rs1 s).toNat ≥ (readReg rs2 s).toNat then s.pc + imm else s.pc + 4)

/-- R166: JAL, by word and by effect: the link is `pc + 4`, the next program counter exactly `pc + imm`; `JAL x0, 0`
leaves the core running where it was. -/
def Obligations.JumpAndLink : Prop :=
  DecodesJ 0b1101111#7 .jal ∧
  (∀ (rd : RegIdx) (imm : Word) (s : State), Computes (exec (.jal rd imm) s) s rd (s.pc + 4) (s.pc + imm)) ∧
  (∀ s : State, Continues (exec (.jal 0 0) s) s s.pc)

/-- R167: JALR, by word and by effect: the link is `pc + 4`; the target is the old `x[rs1]` plus the immediate, bit 0
cleared and no other bit changed. That the old `x[rs1]` counts where `rd = rs1` is the spec's decision D8. -/
def Obligations.JumpAndLinkRegister : Prop :=
  DecodesI 0b1100111#7 0b000#3 .jalr ∧
  (∀ (rd rs1 : RegIdx) (imm : Word) (s : State), ∃ target : Word,
    Computes (exec (.jalr rd rs1 imm) s) s rd (s.pc + 4) target ∧
    target.getLsbD 0 = false ∧ ∀ i : Nat, 0 < i → target.getLsbD i = (readReg rs1 s + imm).getLsbD i)

/-- R157, R168: a branch or a jump, to a bad target too, retires in full with `pc` at its target (`nextPc`; the old `x[rs1]`
where JALR's `rd = rs1` is the spec's decision D8, log 14); the next step's Fetching raises AccessFault at that target
if it is misaligned (D6, log 12), or else outside memory (D4, D5, log 11), and the link register is written by then. -/
def Obligations.BadTargetsFaultAtTheNextFetch : Prop :=
  ∀ (i : Instr) (s t : State), s.run = .running → exec i s = .next t →
    ((∃ rd imm, i = .jal rd imm) ∨ (∃ rd rs1 imm, i = .jalr rd rs1 imm) ∨ (∃ rs1 rs2 imm, i = .beq rs1 rs2 imm) ∨
      (∃ rs1 rs2 imm, i = .bne rs1 rs2 imm) ∨ (∃ rs1 rs2 imm, i = .blt rs1 rs2 imm) ∨
      (∃ rs1 rs2 imm, i = .bge rs1 rs2 imm) ∨ (∃ rs1 rs2 imm, i = .bltu rs1 rs2 imm) ∨
      (∃ rs1 rs2 imm, i = .bgeu rs1 rs2 imm)) →
    t.run = .running ∧ t.pc = nextPc i s ∧
    (t.pc.toNat % 4 ≠ 0 → Traps (step t) t (.accessFault .misaligned t.pc)) ∧
    (t.pc.toNat % 4 = 0 → t.params.memSize < t.pc.toNat + 4 → Traps (step t) t (.accessFault .outOfRange t.pc)) ∧
    (∀ rd imm, i = .jal rd imm → rd ≠ 0 → readReg rd t = s.pc + 4) ∧
    (∀ rd rs1 imm, i = .jalr rd rs1 imm → rd ≠ 0 → readReg rd t = s.pc + 4)

/-! ## Loads and stores -/

/-- R176, R179: LB and LBU, by word and by effect: never misaligned; the byte is bits `8k+7 : 8k` of the containing word,
`k = ea & 3`, extended. The out-of-range fault is the spec's decision D4 (log 11), the read made for `rd = 0` its
decision D25 (log 27), the bus lines its decision D20, the clock units log 8. -/
def Obligations.ByteLoads : Prop :=
  DecodesI 0b0000011#7 0b000#3 .lb ∧ DecodesI 0b0000011#7 0b100#3 .lbu ∧
  ∀ (rd rs1 : RegIdx) (imm : Word) (s : State),
    let ea := readReg rs1 s + imm
    let byte := (containingWord ea s).extractLsb' (8 * (ea.toNat % 4)) 8
    (InMemory ea s → Loads (exec (.lb rd rs1 imm) s) s ea rd (BitVec.ofInt 32 byte.toInt) ∧
      Loads (exec (.lbu rd rs1 imm) s) s ea rd (BitVec.ofNat 32 byte.toNat)) ∧
    (¬ InMemory ea s → Traps (exec (.lb rd rs1 imm) s) s (.accessFault .outOfRange (ea &&& ~~~3)) ∧
      Traps (exec (.lbu rd rs1 imm) s) s (.accessFault .outOfRange (ea &&& ~~~3)))

/-- R177, R180: LH and LHU, by word and by effect: an odd address is misaligned, reported before the range; else 16 bits
of the containing word, extended. The out-of-range fault and its place after the alignment check are the spec's
decisions D4 and D5 (log 11), the read made for `rd = 0` its decision D25 (log 27), the bus lines its decision D20, the
clock units log 8. -/
def Obligations.HalfwordLoads : Prop :=
  DecodesI 0b0000011#7 0b001#3 .lh ∧ DecodesI 0b0000011#7 0b101#3 .lhu ∧
  ∀ (rd rs1 : RegIdx) (imm : Word) (s : State),
    let ea := readReg rs1 s + imm
    let half := (containingWord ea s).extractLsb' (8 * (ea.toNat % 4)) 16
    (ea.toNat % 2 = 0 → InMemory ea s → Loads (exec (.lh rd rs1 imm) s) s ea rd (BitVec.ofInt 32 half.toInt) ∧
      Loads (exec (.lhu rd rs1 imm) s) s ea rd (BitVec.ofNat 32 half.toNat)) ∧
    (ea.toNat % 2 ≠ 0 → Traps (exec (.lh rd rs1 imm) s) s (.accessFault .misaligned ea) ∧
      Traps (exec (.lhu rd rs1 imm) s) s (.accessFault .misaligned ea)) ∧
    (ea.toNat % 2 = 0 → ¬ InMemory ea s →
      Traps (exec (.lh rd rs1 imm) s) s (.accessFault .outOfRange (ea &&& ~~~3)) ∧
      Traps (exec (.lhu rd rs1 imm) s) s (.accessFault .outOfRange (ea &&& ~~~3)))

/-- R178: LW, by word and by effect: all 32 bits; misaligned is reported before out of range. The out-of-range fault and
its place are the spec's decisions D4 and D5 (log 11), the read made for `rd = 0` its decision D25 (log 27), the bus
lines its decision D20, the clock units log 8. -/
def Obligations.WordLoads : Prop :=
  DecodesI 0b0000011#7 0b010#3 .lw ∧
  ∀ (rd rs1 : RegIdx) (imm : Word) (s : State),
    let ea := readReg rs1 s + imm
    (WordAccessible ea s → Loads (exec (.lw rd rs1 imm) s) s ea rd (Memory.readWord s.mem ea.toNat)) ∧
    (ea.toNat % 4 ≠ 0 → Traps (exec (.lw rd rs1 imm) s) s (.accessFault .misaligned ea)) ∧
    (ea.toNat % 4 = 0 → s.params.memSize < ea.toNat + 4 →
      Traps (exec (.lw rd rs1 imm) s) s (.accessFault .outOfRange ea))

/-- R191: SB, by word and by effect: the low 8 bits of `x[rs2]` at `ea`, every other byte as before, by one read and one
write of the containing word; never misaligned. The out-of-range fault is the spec's decision D4 (log 11), the bus
lines its decision D20, the clock units log 8. -/
def Obligations.ByteStores : Prop :=
  DecodesS 0b0100011#7 0b000#3 .sb ∧
  ∀ (rs1 rs2 : RegIdx) (imm : Word) (s : State), Memory.wf s.mem →
    let ea := readReg rs1 s + imm
    (InMemory ea s → StoresTo (exec (.sb rs1 rs2 imm) s) s 1 1 ea (readReg rs2 s)) ∧
    (¬ InMemory ea s → Traps (exec (.sb rs1 rs2 imm) s) s (.accessFault .outOfRange (ea &&& ~~~3)))

/-- R192: SH, by word and by effect: the low 16 bits of `x[rs2]` at `ea`, by one read and one write of the containing
word; an odd address is misaligned, which is the spec's decision D21 (log 16). The out-of-range fault and its place are
its decisions D4 and D5 (log 11), the bus lines its decision D20, the clock units log 8. -/
def Obligations.HalfwordStores : Prop :=
  DecodesS 0b0100011#7 0b001#3 .sh ∧
  ∀ (rs1 rs2 : RegIdx) (imm : Word) (s : State), Memory.wf s.mem →
    let ea := readReg rs1 s + imm
    (ea.toNat % 2 = 0 → InMemory ea s → StoresTo (exec (.sh rs1 rs2 imm) s) s 2 1 ea (readReg rs2 s)) ∧
    (ea.toNat % 2 ≠ 0 → Traps (exec (.sh rs1 rs2 imm) s) s (.accessFault .misaligned ea)) ∧
    (ea.toNat % 2 = 0 → ¬ InMemory ea s →
      Traps (exec (.sh rs1 rs2 imm) s) s (.accessFault .outOfRange (ea &&& ~~~3)))

/-- R193: SW, by word and by effect: all of `x[rs2]` at `ea`, by one write and no read (the spec's decision D23, log 16);
a load of the same address then gives the value back. The out-of-range fault and its place are its decisions D4 and D5
(log 11), the bus lines its decision D20, the clock units log 8. -/
def Obligations.WordStores : Prop :=
  DecodesS 0b0100011#7 0b010#3 .sw ∧
  ∀ (rs1 rs2 : RegIdx) (imm : Word) (s : State), Memory.wf s.mem →
    let ea := readReg rs1 s + imm
    (WordAccessible ea s → StoresTo (exec (.sw rs1 rs2 imm) s) s 4 0 ea (readReg rs2 s) ∧
      ∃ t u, exec (.sw rs1 rs2 imm) s = .next t ∧ wordRead ea t = .ok (readReg rs2 s) u) ∧
    (ea.toNat % 4 ≠ 0 → Traps (exec (.sw rs1 rs2 imm) s) s (.accessFault .misaligned ea)) ∧
    (ea.toNat % 4 = 0 → s.params.memSize < ea.toNat + 4 →
      Traps (exec (.sw rs1 rs2 imm) s) s (.accessFault .outOfRange ea))

/-! ## Fence, breakpoint, environment call -/

/-- R200: FENCE is a no-op: `pc + 4` and nothing else, and it is indistinguishable from `ADDI x0, x0, 0` (in any state an
instruction is dispatched in, where the cell of register 0 is zero). That every word with its opcode and funct3 is FENCE
is the spec's decision D10 (log 15). -/
def Obligations.FenceIsANoOp : Prop :=
  (∀ w : Word, w.extractLsb' 0 7 = 0b0001111#7 → w.extractLsb' 12 3 = 0b000#3 → decode w = .ok .fence) ∧
  (∀ s : State, Continues (exec .fence s) s (s.pc + 4)) ∧
  (∀ s : State, s.cells[0] = 0 → exec .fence s = exec (.addi 0 0 0) s)

/-- R201: EBREAK always raises Breakpoint: `pc` keeps its address (D18), no register and no memory word changes, and the
core never runs again. That it is this one word is the spec's decision D11 (log 15), and that the run state keeps `pc`
beside the tag its decision D7 (log 13). -/
def Obligations.EbreakStopsTheCore : Prop :=
  decode 0x00100073 = .ok .ebreak ∧
  (∀ s : State, Traps (exec .ebreak s) s (.breakpoint s.pc)) ∧
  (∀ (s : State) (n : Nat), s.run = .running → WordAccessible s.pc s → fetchedWord s = 0x00100073 →
    ∃ t, Host.Core.run Sys2Proof.core (n + 1) s = .next t ∧ t.run = .trapped (.breakpoint s.pc) ∧ t.pc = s.pc ∧
      SameRegs s t ∧ t.mem = s.mem)

/-- R202, R203: ECALL hands the 32 registers, register 0 zero, to the handler the core was given: afterwards they are what
it left, register 0 still reads 0, `pc` is `pc + 4`, and it is not a trap: memory, the run state, the parameters and
the bus are untouched. That a handler is a function with a private state and an output is the spec's decision D16, and
their form (a number, bytes appended to the output) is log 5. -/
def Obligations.EcallHandsTheRegistersToTheHandler : Prop :=
  decode 0x00000073 = .ok .ecall ∧
  ∀ s : State, ∃ (given : RegFile) (reply : HandlerReply) (t : State),
    (∀ i : RegIdx, given[i.toNat]'i.isLt = readReg i s) ∧
    reply = callHandler s.params.handler s.hostState given ∧
    exec .ecall s = .next t ∧
    (∀ i : RegIdx, readReg i t = if i = 0 then 0 else reply.regs[i.toNat]'i.isLt) ∧
    t.pc = s.pc + 4 ∧ SameMemory s t ∧ t.run = s.run ∧ t.params = s.params ∧ t.bus = s.bus ∧
    t.hostState = reply.hostState ∧ t.output = s.output ++ reply.output

/-- R203, R204, R205: the external handler is any handler (the spec's decision D16; free, log 5), but it is given the
registers and its own state alone: two cores that agree on those get the same registers, private state and output
from it, whatever their program counters and memories hold. -/
def Obligations.HandlerSeesOnlyTheRegisters : Prop :=
  (∀ s : State, s.params.handler = .external → ∃ (given : RegFile) (t : State),
    (∀ i : RegIdx, given[i.toNat]'i.isLt = readReg i s) ∧ exec .ecall s = .next t ∧ t.cells = (Config.ecallHandler s.hostState given).regs ∧
    t.hostState = (Config.ecallHandler s.hostState given).hostState ∧
    t.output = s.output ++ (Config.ecallHandler s.hostState given).output) ∧
  (∀ s s' : State, s.params.handler = s'.params.handler → s.hostState = s'.hostState → SameRegs s s' →
    ∃ t t' out, exec .ecall s = .next t ∧ exec .ecall s' = .next t' ∧ SameRegs t t' ∧ t.hostState = t'.hostState ∧
      t.output = s.output ++ out ∧ t'.output = s'.output ++ out ∧ t.pc = s.pc + 4 ∧ t'.pc = s'.pc + 4)

/-- R206: the reference handler: selector 0 puts out the argument's low byte, selector 1 the argument in decimal and a
newline, any other selector nothing, and no register changes (the spec's decision D16). Whether a value with bit 31
set prints signed is the spec's open parameter `ECALL_PRINT_SIGNED` (D27); the character codes are log 6. -/
def Obligations.ReferenceHandlerPrints : Prop :=
  ∀ (s : State) (sel arg : RegIdx) (signed : Bool), s.params.handler = .reference sel arg signed →
    let number : Int := if signed then (readReg arg s).toInt else (readReg arg s).toNat
    ∃ t, exec .ecall s = .next t ∧ SameRegs s t ∧ t.pc = s.pc + 4 ∧ SameMemory s t ∧ t.hostState = s.hostState ∧
      t.run = s.run ∧
      (readReg sel s = 0 → t.output = s.output ++ [(readReg arg s).extractLsb' 0 8]) ∧
      (readReg sel s = 1 → t.output = s.output ++ (if number < 0 then [0x2D] else []) ++
        ((Nat.toDigits 10 number.natAbs).map fun c => BitVec.ofNat 8 c.toNat) ++ [0x0A]) ∧
      (readReg sel s ≠ 0 → readReg sel s ≠ 1 → t.output = s.output)

/-! ## Time -/

/-- R264: the clock units of a retired instruction, as the source counts them: in the hardware realization 2, 3 or 4 by
instruction (ECALL 2 plus what the handler takes), in the software realization one. The clock is the model's count of
units (log 8). -/
def Obligations.ClockUnitsOfARetiredInstruction : Prop :=
  ∀ (s t : State) (i : Instr), s.run = .running → WordAccessible s.pc s → decode (fetchedWord s) = .ok i →
    step s = .next t → t.run = .running → t.clock = s.clock + clockUnits i s
end

