-- ==== Sys2Proof/Laws/Memory.lean ====
section
/-! SUPPORT. The laws of memory: reading after writing, and the canonical form kept by every operation. -/

namespace Sys2Proof.Machine

/-- Below the first listed address nothing is listed. -/
theorem Memory.readByte_unlisted {m : Memory} {a : Nat} (h : ∀ c ∈ m, a < c.1) :
    Memory.readByte m a = unlistedByte := by
  induction m with
  | nil => rfl
  | cons c rest ih =>
    obtain ⟨k, b⟩ := c
    have hk : k ≠ a := by have := h (k, b) (by simp); simp at this; omega
    simp only [Memory.readByte, if_neg hk]
    exact ih fun c hc => h c (by simp [hc])

/-- A byte written is read back, and every other byte is as before (`20_memory.md` R32, byte by byte). -/
theorem Memory.readByte_writeByte {m : Memory} (hm : m.Pairwise (fun c d => c.1 < d.1)) (a b : Nat) (v : Byte) :
    Memory.readByte (Memory.writeByte m a v) b = if b = a then v else Memory.readByte m b := by
  induction m with
  | nil =>
    by_cases hv : v = unlistedByte <;> by_cases hb : b = a <;> simp [Memory.writeByte, Memory.readByte, hv, hb]
    exact fun h => absurd h.symm hb
  | cons c rest ih =>
    obtain ⟨k, x⟩ := c
    obtain ⟨hhead, htail⟩ := List.pairwise_cons.mp hm
    have hbelow : ∀ n, n ≤ k → Memory.readByte rest n = unlistedByte := fun n hn =>
      Memory.readByte_unlisted fun c hc => by have := hhead c hc; simp at this; omega
    simp only [Memory.writeByte]
    split
    · rename_i hlt
      by_cases hb : b = a
      · subst hb
        by_cases hv : v = unlistedByte
        · simp [hv, Memory.readByte, hbelow b (by omega), show k ≠ b by omega]
        · simp [hv, Memory.readByte]
      · by_cases hv : v = unlistedByte <;> simp [hv, Memory.readByte, hb, Ne.symm hb]
    · split
      · rename_i heq
        subst heq
        by_cases hb : b = a
        · subst hb
          by_cases hv : v = unlistedByte
          · simp [hv, hbelow b (by omega)]
          · simp [hv, Memory.readByte]
        · by_cases hv : v = unlistedByte <;> simp [hv, Memory.readByte, hb, Ne.symm hb]
      · rename_i hlt hne
        simp only [Memory.readByte]
        by_cases hb : k = b
        · subst hb; simp [show k ≠ a by omega]
        · simp [hb, ih htail]

/-- Every entry after a write is an old entry or the written one. -/
theorem Memory.mem_writeByte {m : Memory} {a : Nat} {v : Byte} {c : Host.Cell} (h : c ∈ Memory.writeByte m a v) :
    c ∈ m ∨ (c = (a, v) ∧ v ≠ unlistedByte) := by
  induction m with
  | nil =>
    by_cases hv : v = unlistedByte <;> simp [Memory.writeByte, hv] at h
    exact .inr ⟨h, hv⟩
  | cons d rest ih =>
    obtain ⟨k, x⟩ := d
    by_cases hv : v = unlistedByte
    · simp only [Memory.writeByte, hv, if_true] at h
      split at h
      · exact .inl h
      · split at h
        · exact .inl (by simp [h])
        · rcases List.mem_cons.mp h with h | h
          · exact .inl (by simp [h])
          · rcases ih (hv ▸ h) with h | h
            · exact .inl (by simp [h])
            · exact absurd hv h.2
    · simp only [Memory.writeByte, hv, if_false] at h
      split at h
      · rcases List.mem_cons.mp h with h | h
        · exact .inr ⟨h, hv⟩
        · exact .inl h
      · split at h
        · rcases List.mem_cons.mp h with h | h
          · exact .inr ⟨h, hv⟩
          · exact .inl (by simp [h])
        · rcases List.mem_cons.mp h with h | h
          · exact .inl (by simp [h])
          · rcases ih h with h | h
            · exact .inl (by simp [h])
            · exact .inr h

/-- Writing a byte keeps the addresses strictly rising. -/
theorem Memory.writeByte_sorted {m : Memory} (hm : m.Pairwise (fun c d => c.1 < d.1)) (a : Nat) (v : Byte) :
    (Memory.writeByte m a v).Pairwise (fun c d => c.1 < d.1) := by
  induction m with
  | nil => by_cases hv : v = unlistedByte <;> simp [Memory.writeByte, hv]
  | cons c rest ih =>
    obtain ⟨k, x⟩ := c
    obtain ⟨hhead, htail⟩ := List.pairwise_cons.mp hm
    simp only [Memory.writeByte]
    split
    · rename_i hlt
      by_cases hv : v = unlistedByte
      · simpa [hv] using hm
      · simp only [hv, if_false]
        refine List.pairwise_cons.mpr ⟨fun d hd => ?_, hm⟩
        rcases List.mem_cons.mp hd with hd | hd
        · simp [hd, hlt]
        · exact Nat.lt_trans hlt (hhead d hd)
    · split
      · rename_i heq
        by_cases hv : v = unlistedByte
        · simpa [hv] using htail
        · simp only [hv, if_false]
          exact List.pairwise_cons.mpr ⟨fun d hd => heq ▸ hhead d hd, htail⟩
      · rename_i hlt hne
        refine List.pairwise_cons.mpr ⟨fun d hd => ?_, ih htail⟩
        rcases Memory.mem_writeByte hd with hd | hd
        · exact hhead d hd
        · simp only [hd.1]; omega

/-- Writing a byte keeps the canonical form. -/
theorem Memory.writeByte_wf {m : Memory} (hm : Memory.wf m) (a : Nat) (v : Byte) : Memory.wf (Memory.writeByte m a v) :=
  ⟨Memory.writeByte_sorted hm.1 a v, fun c hc => by
    rcases Memory.mem_writeByte hc with h | h
    · exact hm.2 c h
    · simpa [h.1] using h.2⟩

/-- Writing a byte inside the memory keeps every listed address inside it. -/
theorem Memory.writeByte_within {m : Memory} {size : Nat} (hm : Memory.within m size) {a : Nat} (ha : a < size)
    (v : Byte) : Memory.within (Memory.writeByte m a v) size := fun c hc => by
  rcases Memory.mem_writeByte hc with h | h
  · exact hm c h
  · simpa [h.1] using ha

/-- Writing a word keeps the canonical form. -/
theorem Memory.writeWord_wf {m : Memory} (hm : Memory.wf m) (a : Nat) (w : Word) : Memory.wf (Memory.writeWord m a w) :=
  Memory.writeByte_wf (Memory.writeByte_wf (Memory.writeByte_wf (Memory.writeByte_wf hm _ _) _ _) _ _) _ _

/-- Writing a word inside the memory keeps every listed address inside it. -/
theorem Memory.writeWord_within {m : Memory} {size : Nat} (hm : Memory.within m size) {a : Nat} (ha : a + 4 ≤ size)
    (w : Word) : Memory.within (Memory.writeWord m a w) size :=
  Memory.writeByte_within (Memory.writeByte_within (Memory.writeByte_within (Memory.writeByte_within hm
    (by omega) _) (by omega) _) (by omega) _) (by omega) _

/-- A byte after a word is written: the word's own lane inside it, as before outside. -/
theorem Memory.readByte_writeWord {m : Memory} (hm : Memory.wf m) (a b : Nat) (w : Word) :
    Memory.readByte (Memory.writeWord m a w) b =
      if a ≤ b ∧ b < a + 4 then byteLane w (b - a) else Memory.readByte m b := by
  have h0 := Memory.writeByte_wf hm a (byteLane w 0)
  have h1 := Memory.writeByte_wf h0 (a + 1) (byteLane w 1)
  have h2 := Memory.writeByte_wf h1 (a + 2) (byteLane w 2)
  unfold Memory.writeWord
  rw [Memory.readByte_writeByte h2.1, Memory.readByte_writeByte h1.1, Memory.readByte_writeByte h0.1,
    Memory.readByte_writeByte hm.1]
  by_cases h3 : b = a + 3
  · simp [h3]
  by_cases h2 : b = a + 2
  · simp [h2]
  by_cases h1 : b = a + 1
  · simp [h1]
  by_cases h0 : b = a
  · simp [h0]
  · simp only [h3, h2, h1, h0, if_false]
    rw [if_neg (by omega)]

/-- The byte lanes of an assembled word are its bytes (`20_memory.md` R42). -/
theorem byteLane_wordOfBytes (b0 b1 b2 b3 : Byte) :
    byteLane (wordOfBytes b0 b1 b2 b3) 0 = b0 ∧ byteLane (wordOfBytes b0 b1 b2 b3) 1 = b1 ∧
      byteLane (wordOfBytes b0 b1 b2 b3) 2 = b2 ∧ byteLane (wordOfBytes b0 b1 b2 b3) 3 = b3 := by
  unfold byteLane wordOfBytes
  refine ⟨?_, ?_, ?_, ?_⟩ <;>
  · apply BitVec.eq_of_getLsbD_eq
    intro i hi
    simp only [BitVec.getLsbD_extractLsb', BitVec.getLsbD_append, hi, decide_true, Bool.true_and]
    (repeat' split) <;> first | omega | (congr 1; omega)

/-- A word is the word of its byte lanes (`20_memory.md` R42). -/
theorem wordOfBytes_byteLanes (w : Word) :
    wordOfBytes (byteLane w 0) (byteLane w 1) (byteLane w 2) (byteLane w 3) = w := by
  unfold byteLane wordOfBytes
  apply BitVec.eq_of_getLsbD_eq
  intro i hi
  simp only [BitVec.getLsbD_extractLsb', BitVec.getLsbD_append]
  (repeat' split) <;> (rw [decide_eq_true (by omega), Bool.true_and]; congr 1; omega)

/-- R32: "After it, `PortRead(a)` returns exactly `w`". -/
theorem Memory.readWord_writeWord {m : Memory} (hm : Memory.wf m) (a : Nat) (w : Word) :
    Memory.readWord (Memory.writeWord m a w) a = w := by
  unfold Memory.readWord
  simp only [Memory.readByte_writeWord hm]
  simpa using wordOfBytes_byteLanes w

/-- R32: a word written "changes no other word". -/
theorem Memory.readWord_writeWord_ne {m : Memory} (hm : Memory.wf m) {a b : Nat} (h : b + 4 ≤ a ∨ a + 4 ≤ b) (w : Word) :
    Memory.readWord (Memory.writeWord m a w) b = Memory.readWord m b := by
  unfold Memory.readWord
  simp only [Memory.readByte_writeWord hm]
  rw [if_neg (by omega), if_neg (by omega), if_neg (by omega), if_neg (by omega)]

/-- A byte of memory is the lane of the word that contains it (`20_memory.md` R34, R42). -/
theorem Memory.readByte_eq_byteLane (m : Memory) (a k : Nat) (hk : k < 4) :
    Memory.readByte m (a + k) = byteLane (Memory.readWord m a) k := by
  obtain ⟨h0, h1, h2, h3⟩ := byteLane_wordOfBytes (Memory.readByte m a) (Memory.readByte m (a + 1))
    (Memory.readByte m (a + 2)) (Memory.readByte m (a + 3))
  unfold Memory.readWord
  match k, hk with
  | 0, _ => exact h0.symm
  | 1, _ => exact h1.symm
  | 2, _ => exact h2.symm
  | 3, _ => exact h3.symm

/-! ## Memory at reset -/

/-- Storing bytes in a row keeps the canonical form and stays inside the memory. -/
theorem Memory.writeBytes_wf {m : Memory} (hm : Memory.wf m) (a : Nat) (bs : List Byte) :
    Memory.wf (Memory.writeBytes m a bs) := by
  induction bs generalizing m a with
  | nil => exact hm
  | cons b rest ih => exact ih (Memory.writeByte_wf hm a b) (a + 1)

theorem Memory.writeBytes_within {m : Memory} {size : Nat} (hm : Memory.within m size) {a : Nat} {bs : List Byte}
    (h : a + bs.length ≤ size) : Memory.within (Memory.writeBytes m a bs) size := by
  induction bs generalizing m a with
  | nil => exact hm
  | cons b rest ih =>
    simp only [List.length_cons] at h
    exact ih (Memory.writeByte_within hm (by omega) b) (by omega)

/-- A byte after bytes are stored in a row: the stored one inside, as before outside. -/
theorem Memory.readByte_writeBytes {m : Memory} (hm : Memory.wf m) (a k : Nat) (bs : List Byte) :
    Memory.readByte (Memory.writeBytes m a bs) k =
      if h : a ≤ k ∧ k < a + bs.length then bs[k - a]'(by omega) else Memory.readByte m k := by
  induction bs generalizing m a with
  | nil =>
    rw [dif_neg (by simp)]
    rfl
  | cons b rest ih =>
    rw [Memory.writeBytes, ih (Memory.writeByte_wf hm a b) (a + 1), Memory.readByte_writeByte hm.1]
    by_cases hk : k = a
    · subst hk
      rw [dif_neg (by omega), dif_pos (by simp)]
      simp
    · by_cases hin : a + 1 ≤ k ∧ k < a + 1 + rest.length
      · rw [dif_pos hin, dif_pos (by simp only [List.length_cons]; omega)]
        simp only [show k - a = (k - (a + 1)) + 1 by omega, List.getElem_cons_succ]
      · rw [dif_neg hin, dif_neg (by simp only [List.length_cons]; omega), if_neg hk]

theorem Memory.ofCells_wf {m : Memory} (hm : Memory.wf m) (size : Nat) (cs : List Host.Cell) :
    Memory.wf (Memory.ofCells size m cs) := by
  induction cs generalizing m with
  | nil => exact hm
  | cons c rest ih =>
    rw [Memory.ofCells]
    split
    · exact ih (Memory.writeByte_wf hm _ _)
    · exact ih hm

theorem Memory.ofCells_within {m : Memory} {size : Nat} (hm : Memory.within m size) (cs : List Host.Cell) :
    Memory.within (Memory.ofCells size m cs) size := by
  induction cs generalizing m with
  | nil => exact hm
  | cons c rest ih =>
    rw [Memory.ofCells]
    split
    · rename_i h; exact ih (Memory.writeByte_within hm h _)
    · exact ih hm

/-- A byte of contents built from a list of cells: the last cell listed for it inside the memory, else as before. -/
theorem Memory.readByte_ofCells {m : Memory} (hm : Memory.wf m) (size k : Nat) (cs : List Host.Cell) :
    Memory.readByte (Memory.ofCells size m cs) k =
      if k < size then
        match cs.reverse.find? (fun c => c.1 == k) with
        | some c => c.2
        | none   => Memory.readByte m k
      else Memory.readByte m k := by
  induction cs generalizing m with
  | nil => simp [Memory.ofCells]
  | cons c rest ih =>
    have hw : Memory.wf (if c.1 < size then Memory.writeByte m c.1 c.2 else m) := by
      split
      · exact Memory.writeByte_wf hm _ _
      · exact hm
    have hr : Memory.readByte (if c.1 < size then Memory.writeByte m c.1 c.2 else m) k =
        if k = c.1 ∧ k < size then c.2 else Memory.readByte m k := by
      by_cases hc : c.1 < size
      · rw [if_pos hc, Memory.readByte_writeByte hm.1]
        by_cases hk : k = c.1
        · rw [if_pos hk, if_pos ⟨hk, hk ▸ hc⟩]
        · rw [if_neg hk, if_neg fun h : k = c.1 ∧ k < size => hk h.1]
      · rw [if_neg hc, if_neg fun h : k = c.1 ∧ k < size => hc (h.1 ▸ h.2)]
    rw [Memory.ofCells, ih hw, hr, List.reverse_cons, List.find?_append]
    by_cases hk : k < size
    · rw [if_pos hk, if_pos hk]
      cases rest.reverse.find? (fun c => c.1 == k) with
      | some d => rfl
      | none =>
        by_cases hc : k = c.1
        · simp [hc.symm, hk]
        · simp [hc, Ne.symm hc]
    · simp [hk]

/-- Memory at reset is in canonical form. -/
theorem Memory.initial_wf (size : Nat) (contents : List Host.Cell) (image : List Byte) :
    Memory.wf (Memory.initial size contents image) :=
  Memory.writeBytes_wf (Memory.ofCells_wf ⟨by simp, by simp⟩ size contents) 0 image

/-- An image that fits leaves memory at reset inside the memory. -/
theorem Memory.initial_within {size : Nat} (contents : List Host.Cell) {image : List Byte} (h : image.length ≤ size) :
    Memory.within (Memory.initial size contents image) size :=
  Memory.writeBytes_within (Memory.ofCells_within (by simp) contents) (by omega)

end Sys2Proof.Machine
end

