-- ==== Sys2Proof/Laws/State.lean ====
section
/-! SUPPORT. One lemma per field per update of State, so that no later proof unfolds a record update. -/

namespace Sys2Proof.Machine

@[simp] theorem writeReg_cells (i : RegIdx) (v : Word) (s : State) : (writeReg i v s).cells = s.cells.set i.toNat v i.isLt := rfl
@[simp] theorem writeReg_pc (i : RegIdx) (v : Word) (s : State) : (writeReg i v s).pc = s.pc := rfl
@[simp] theorem writeReg_run (i : RegIdx) (v : Word) (s : State) : (writeReg i v s).run = s.run := rfl
@[simp] theorem writeReg_mem (i : RegIdx) (v : Word) (s : State) : (writeReg i v s).mem = s.mem := rfl
@[simp] theorem writeReg_bus (i : RegIdx) (v : Word) (s : State) : (writeReg i v s).bus = s.bus := rfl
@[simp] theorem writeReg_clock (i : RegIdx) (v : Word) (s : State) : (writeReg i v s).clock = s.clock := rfl
@[simp] theorem writeReg_output (i : RegIdx) (v : Word) (s : State) : (writeReg i v s).output = s.output := rfl
@[simp] theorem writeReg_hostState (i : RegIdx) (v : Word) (s : State) : (writeReg i v s).hostState = s.hostState := rfl
@[simp] theorem writeReg_params (i : RegIdx) (v : Word) (s : State) : (writeReg i v s).params = s.params := rfl

@[simp] theorem retire_cells (s : State) : (retire s).cells = s.cells := rfl
@[simp] theorem retire_pc (s : State) : (retire s).pc = s.pc + 4 := rfl
@[simp] theorem retire_run (s : State) : (retire s).run = s.run := rfl
@[simp] theorem retire_mem (s : State) : (retire s).mem = s.mem := rfl
@[simp] theorem retire_bus (s : State) : (retire s).bus = s.bus := rfl
@[simp] theorem retire_clock (s : State) : (retire s).clock = s.clock := rfl
@[simp] theorem retire_output (s : State) : (retire s).output = s.output := rfl
@[simp] theorem retire_hostState (s : State) : (retire s).hostState = s.hostState := rfl
@[simp] theorem retire_params (s : State) : (retire s).params = s.params := rfl

@[simp] theorem retireTo_cells (target : Word) (s : State) : (retireTo target s).cells = s.cells := rfl
@[simp] theorem retireTo_pc (target : Word) (s : State) : (retireTo target s).pc = target := rfl
@[simp] theorem retireTo_run (target : Word) (s : State) : (retireTo target s).run = s.run := rfl
@[simp] theorem retireTo_mem (target : Word) (s : State) : (retireTo target s).mem = s.mem := rfl
@[simp] theorem retireTo_bus (target : Word) (s : State) : (retireTo target s).bus = s.bus := rfl
@[simp] theorem retireTo_clock (target : Word) (s : State) : (retireTo target s).clock = s.clock := rfl
@[simp] theorem retireTo_output (target : Word) (s : State) : (retireTo target s).output = s.output := rfl
@[simp] theorem retireTo_hostState (target : Word) (s : State) : (retireTo target s).hostState = s.hostState := rfl
@[simp] theorem retireTo_params (target : Word) (s : State) : (retireTo target s).params = s.params := rfl

@[simp] theorem tick_cells (n : Nat) (s : State) : (tick n s).cells = s.cells := rfl
@[simp] theorem tick_pc (n : Nat) (s : State) : (tick n s).pc = s.pc := rfl
@[simp] theorem tick_run (n : Nat) (s : State) : (tick n s).run = s.run := rfl
@[simp] theorem tick_mem (n : Nat) (s : State) : (tick n s).mem = s.mem := rfl
@[simp] theorem tick_bus (n : Nat) (s : State) : (tick n s).bus = s.bus := rfl
@[simp] theorem tick_clock (n : Nat) (s : State) : (tick n s).clock = s.clock + n := rfl
@[simp] theorem tick_output (n : Nat) (s : State) : (tick n s).output = s.output := rfl
@[simp] theorem tick_hostState (n : Nat) (s : State) : (tick n s).hostState = s.hostState := rfl
@[simp] theorem tick_params (n : Nat) (s : State) : (tick n s).params = s.params := rfl

@[simp] theorem beginDispatch_cells (s : State) : (beginDispatch s).cells = s.cells.set 0 0 := rfl
@[simp] theorem beginDispatch_pc (s : State) : (beginDispatch s).pc = s.pc := rfl
@[simp] theorem beginDispatch_run (s : State) : (beginDispatch s).run = s.run := rfl
@[simp] theorem beginDispatch_mem (s : State) : (beginDispatch s).mem = s.mem := rfl
@[simp] theorem beginDispatch_bus (s : State) : (beginDispatch s).bus = s.bus := rfl
@[simp] theorem beginDispatch_clock (s : State) : (beginDispatch s).clock = s.clock + 1 := rfl
@[simp] theorem beginDispatch_output (s : State) : (beginDispatch s).output = s.output := rfl
@[simp] theorem beginDispatch_hostState (s : State) : (beginDispatch s).hostState = s.hostState := rfl
@[simp] theorem beginDispatch_params (s : State) : (beginDispatch s).params = s.params := rfl

@[simp] theorem takeTrap_cells (t : Trap) (s : State) : (takeTrap t s).cells = s.cells := rfl
@[simp] theorem takeTrap_pc (t : Trap) (s : State) : (takeTrap t s).pc = s.pc := rfl
@[simp] theorem takeTrap_run (t : Trap) (s : State) : (takeTrap t s).run = .trapped t := rfl
@[simp] theorem takeTrap_mem (t : Trap) (s : State) : (takeTrap t s).mem = s.mem := rfl
@[simp] theorem takeTrap_bus (t : Trap) (s : State) : (takeTrap t s).bus = s.bus := rfl
@[simp] theorem takeTrap_clock (t : Trap) (s : State) : (takeTrap t s).clock = s.clock := rfl
@[simp] theorem takeTrap_output (t : Trap) (s : State) : (takeTrap t s).output = s.output := rfl
@[simp] theorem takeTrap_hostState (t : Trap) (s : State) : (takeTrap t s).hostState = s.hostState := rfl
@[simp] theorem takeTrap_params (t : Trap) (s : State) : (takeTrap t s).params = s.params := rfl

@[simp] theorem haltTick_cells (s : State) : (haltTick s).cells = s.cells := rfl
@[simp] theorem haltTick_pc (s : State) : (haltTick s).pc = s.pc := rfl
@[simp] theorem haltTick_run (s : State) : (haltTick s).run = s.run := rfl
@[simp] theorem haltTick_mem (s : State) : (haltTick s).mem = s.mem := rfl
@[simp] theorem haltTick_bus (s : State) : (haltTick s).bus = s.bus := rfl
@[simp] theorem haltTick_clock (s : State) : (haltTick s).clock = s.clock + 1 := rfl
@[simp] theorem haltTick_output (s : State) : (haltTick s).output = s.output := rfl
@[simp] theorem haltTick_hostState (s : State) : (haltTick s).hostState = s.hostState := rfl
@[simp] theorem haltTick_params (s : State) : (haltTick s).params = s.params := rfl

@[simp] theorem driveWrite_cells (a w : Word) (s : State) : (driveWrite a w s).cells = s.cells := rfl
@[simp] theorem driveWrite_pc (a w : Word) (s : State) : (driveWrite a w s).pc = s.pc := rfl
@[simp] theorem driveWrite_run (a w : Word) (s : State) : (driveWrite a w s).run = s.run := rfl
@[simp] theorem driveWrite_mem (a w : Word) (s : State) : (driveWrite a w s).mem = s.mem := rfl
@[simp] theorem driveWrite_bus (a w : Word) (s : State) : (driveWrite a w s).bus = ⟨a.extractLsb' 2 30, w, true⟩ := rfl
@[simp] theorem driveWrite_clock (a w : Word) (s : State) : (driveWrite a w s).clock = s.clock := rfl
@[simp] theorem driveWrite_output (a w : Word) (s : State) : (driveWrite a w s).output = s.output := rfl
@[simp] theorem driveWrite_hostState (a w : Word) (s : State) : (driveWrite a w s).hostState = s.hostState := rfl
@[simp] theorem driveWrite_params (a w : Word) (s : State) : (driveWrite a w s).params = s.params := rfl

@[simp] theorem releaseWrite_cells (s : State) : (releaseWrite s).cells = s.cells := rfl
@[simp] theorem releaseWrite_pc (s : State) : (releaseWrite s).pc = s.pc := rfl
@[simp] theorem releaseWrite_run (s : State) : (releaseWrite s).run = s.run := rfl
@[simp] theorem releaseWrite_mem (s : State) : (releaseWrite s).mem = s.mem := rfl
@[simp] theorem releaseWrite_bus (s : State) : (releaseWrite s).bus = ⟨s.bus.addr, s.bus.wdata, false⟩ := rfl
@[simp] theorem releaseWrite_clock (s : State) : (releaseWrite s).clock = s.clock := rfl
@[simp] theorem releaseWrite_output (s : State) : (releaseWrite s).output = s.output := rfl
@[simp] theorem releaseWrite_hostState (s : State) : (releaseWrite s).hostState = s.hostState := rfl
@[simp] theorem releaseWrite_params (s : State) : (releaseWrite s).params = s.params := rfl

@[simp] theorem acceptReply_cells (r : HandlerReply) (s : State) : (acceptReply r s).cells = r.regs := rfl
@[simp] theorem acceptReply_pc (r : HandlerReply) (s : State) : (acceptReply r s).pc = s.pc := rfl
@[simp] theorem acceptReply_run (r : HandlerReply) (s : State) : (acceptReply r s).run = s.run := rfl
@[simp] theorem acceptReply_mem (r : HandlerReply) (s : State) : (acceptReply r s).mem = s.mem := rfl
@[simp] theorem acceptReply_bus (r : HandlerReply) (s : State) : (acceptReply r s).bus = s.bus := rfl
@[simp] theorem acceptReply_clock (r : HandlerReply) (s : State) : (acceptReply r s).clock = s.clock := rfl
@[simp] theorem acceptReply_output (r : HandlerReply) (s : State) : (acceptReply r s).output = s.output ++ r.output := rfl
@[simp] theorem acceptReply_hostState (r : HandlerReply) (s : State) : (acceptReply r s).hostState = r.hostState := rfl
@[simp] theorem acceptReply_params (r : HandlerReply) (s : State) : (acceptReply r s).params = s.params := rfl

@[simp] theorem busRead_cells (a : Word) (s : State) : (busRead a s).cells = s.cells := by
  unfold busRead; split <;> rfl
@[simp] theorem busRead_pc (a : Word) (s : State) : (busRead a s).pc = s.pc := by
  unfold busRead; split <;> rfl
@[simp] theorem busRead_run (a : Word) (s : State) : (busRead a s).run = s.run := by
  unfold busRead; split <;> rfl
@[simp] theorem busRead_mem (a : Word) (s : State) : (busRead a s).mem = s.mem := by
  unfold busRead; split <;> rfl
@[simp] theorem busRead_output (a : Word) (s : State) : (busRead a s).output = s.output := by
  unfold busRead; split <;> rfl
@[simp] theorem busRead_hostState (a : Word) (s : State) : (busRead a s).hostState = s.hostState := by
  unfold busRead; split <;> rfl
@[simp] theorem busRead_params (a : Word) (s : State) : (busRead a s).params = s.params := by
  unfold busRead; split <;> rfl

@[simp] theorem busWrite_cells (a w : Word) (s : State) : (busWrite a w s).cells = s.cells := by
  unfold busWrite; split <;> rfl
@[simp] theorem busWrite_pc (a w : Word) (s : State) : (busWrite a w s).pc = s.pc := by
  unfold busWrite; split <;> rfl
@[simp] theorem busWrite_run (a w : Word) (s : State) : (busWrite a w s).run = s.run := by
  unfold busWrite; split <;> rfl
@[simp] theorem busWrite_mem (a w : Word) (s : State) : (busWrite a w s).mem = s.mem := by
  unfold busWrite; split <;> rfl
@[simp] theorem busWrite_output (a w : Word) (s : State) : (busWrite a w s).output = s.output := by
  unfold busWrite; split <;> rfl
@[simp] theorem busWrite_hostState (a w : Word) (s : State) : (busWrite a w s).hostState = s.hostState := by
  unfold busWrite; split <;> rfl
@[simp] theorem busWrite_params (a w : Word) (s : State) : (busWrite a w s).params = s.params := by
  unfold busWrite; split <;> rfl

@[simp] theorem handlerTime_cells (x : RegFile) (s : State) : (handlerTime x s).cells = s.cells := by
  unfold handlerTime; split <;> rfl
@[simp] theorem handlerTime_pc (x : RegFile) (s : State) : (handlerTime x s).pc = s.pc := by
  unfold handlerTime; split <;> rfl
@[simp] theorem handlerTime_run (x : RegFile) (s : State) : (handlerTime x s).run = s.run := by
  unfold handlerTime; split <;> rfl
@[simp] theorem handlerTime_mem (x : RegFile) (s : State) : (handlerTime x s).mem = s.mem := by
  unfold handlerTime; split <;> rfl
@[simp] theorem handlerTime_bus (x : RegFile) (s : State) : (handlerTime x s).bus = s.bus := by
  unfold handlerTime; split <;> rfl
@[simp] theorem handlerTime_output (x : RegFile) (s : State) : (handlerTime x s).output = s.output := by
  unfold handlerTime; split <;> rfl
@[simp] theorem handlerTime_hostState (x : RegFile) (s : State) : (handlerTime x s).hostState = s.hostState := by
  unfold handlerTime; split <;> rfl
@[simp] theorem handlerTime_params (x : RegFile) (s : State) : (handlerTime x s).params = s.params := by
  unfold handlerTime; split <;> rfl

@[simp] theorem storeFetchWord_mem (s : State) (nbits w : Nat) :
    (storeFetchWord s nbits w).mem = Memory.writeWord s.mem s.pc.toNat (BitVec.ofNat 32 (w % 2 ^ nbits)) := rfl
@[simp] theorem storeFetchWord_cells (s : State) (nbits w : Nat) : (storeFetchWord s nbits w).cells = s.cells := rfl
@[simp] theorem storeFetchWord_pc (s : State) (nbits w : Nat) : (storeFetchWord s nbits w).pc = s.pc := rfl
@[simp] theorem storeFetchWord_run (s : State) (nbits w : Nat) : (storeFetchWord s nbits w).run = s.run := rfl
@[simp] theorem storeFetchWord_bus (s : State) (nbits w : Nat) : (storeFetchWord s nbits w).bus = s.bus := rfl
@[simp] theorem storeFetchWord_clock (s : State) (nbits w : Nat) : (storeFetchWord s nbits w).clock = s.clock := rfl
@[simp] theorem storeFetchWord_output (s : State) (nbits w : Nat) : (storeFetchWord s nbits w).output = s.output := rfl
@[simp] theorem storeFetchWord_hostState (s : State) (nbits w : Nat) : (storeFetchWord s nbits w).hostState = s.hostState := rfl
@[simp] theorem storeFetchWord_params (s : State) (nbits w : Nat) : (storeFetchWord s nbits w).params = s.params := rfl

/-! ## The bus and the clock through the two realizations -/

theorem busRead_software (a : Word) (s : State) (h : s.params.realization = .software) : busRead a s = s := by
  simp [busRead, h]

theorem busRead_hardware_bus (a : Word) (s : State) (h : s.params.realization = .hardware) :
    (busRead a s).bus = ⟨a.extractLsb' 2 30, s.bus.wdata, false⟩ := by simp [busRead, h]

theorem busRead_hardware_clock (a : Word) (s : State) (h : s.params.realization = .hardware) :
    (busRead a s).clock = s.clock + 1 := by simp [busRead, h]

theorem busWrite_software (a w : Word) (s : State) (h : s.params.realization = .software) : busWrite a w s = s := by
  simp [busWrite, h]

theorem busWrite_hardware_bus (a w : Word) (s : State) (h : s.params.realization = .hardware) :
    (busWrite a w s).bus = ⟨a.extractLsb' 2 30, w, false⟩ := by simp [busWrite, h]

theorem busWrite_hardware_clock (a w : Word) (s : State) (h : s.params.realization = .hardware) :
    (busWrite a w s).clock = s.clock + 1 := by simp [busWrite, h]

/-- A bus transaction leaves write-enable low (`20_memory.md` R46). -/
theorem busRead_we (a : Word) (s : State) (h : s.bus.we = false) : (busRead a s).bus.we = false := by
  unfold busRead; split <;> simp [h]

theorem busWrite_we (a w : Word) (s : State) (h : s.bus.we = false) : (busWrite a w s).bus.we = false := by
  unfold busWrite; split <;> simp [h]

/-! ## The architectural registers through each update -/

@[simp] theorem readReg_zero (s : State) : readReg 0 s = 0 := rfl

/-- Two states with the same cells read the same registers. -/
theorem readReg_congr {s t : State} (h : t.cells = s.cells) (i : RegIdx) : readReg i t = readReg i s := by
  simp [readReg, h]

/-- A register other than 0 has another cell than register 0. -/
theorem cell_ne_zero {i : RegIdx} (hi : i ≠ 0) : (0 : Nat) ≠ i.toNat :=
  fun h => hi (BitVec.eq_of_toNat_eq (by simpa using h.symm))

/-- Two states whose cells agree but for register 0 read the same registers. -/
theorem readReg_of_cells_set_zero {s t : State} (h : t.cells = s.cells.set 0 0) (i : RegIdx) :
    readReg i t = readReg i s := by
  unfold readReg
  by_cases hi : i = 0
  · rw [if_pos hi, if_pos hi]
  · rw [if_neg hi, if_neg hi]
    simp only [h]
    exact Vector.getElem_set_ne _ i.isLt (cell_ne_zero hi)

/-- R11, R12: a write is read back, but for register 0, and no other register sees it. -/
theorem readReg_writeReg (i j : RegIdx) (v : Word) (s : State) :
    readReg j (writeReg i v s) = if j = i ∧ j ≠ 0 then v else readReg j s := by
  unfold readReg
  by_cases hj : j = 0
  · rw [if_pos hj, if_pos hj, if_neg (fun h => h.2 hj)]
  · rw [if_neg hj, if_neg hj]
    by_cases hij : j = i
    · subst hij
      rw [if_pos ⟨rfl, hj⟩]
      exact Vector.getElem_set_self _
    · rw [if_neg (fun h => hij h.1)]
      exact Vector.getElem_set_ne i.isLt j.isLt (fun h => hij (BitVec.eq_of_toNat_eq h.symm))

@[simp] theorem readReg_beginDispatch (i : RegIdx) (s : State) : readReg i (beginDispatch s) = readReg i s :=
  readReg_of_cells_set_zero (by simp) i

@[simp] theorem readReg_retire (i : RegIdx) (s : State) : readReg i (retire s) = readReg i s :=
  readReg_congr (by simp) i
@[simp] theorem readReg_retireTo (target : Word) (i : RegIdx) (s : State) : readReg i (retireTo target s) = readReg i s :=
  readReg_congr (by simp) i
@[simp] theorem readReg_tick (n : Nat) (i : RegIdx) (s : State) : readReg i (tick n s) = readReg i s :=
  readReg_congr (by simp) i
@[simp] theorem readReg_takeTrap (t : Trap) (i : RegIdx) (s : State) : readReg i (takeTrap t s) = readReg i s :=
  readReg_congr (by simp) i
@[simp] theorem readReg_busRead (a : Word) (i : RegIdx) (s : State) : readReg i (busRead a s) = readReg i s :=
  readReg_congr (by simp) i
@[simp] theorem readReg_busWrite (a w : Word) (i : RegIdx) (s : State) : readReg i (busWrite a w s) = readReg i s :=
  readReg_congr (by simp) i
@[simp] theorem readReg_handlerTime (x : RegFile) (i : RegIdx) (s : State) : readReg i (handlerTime x s) = readReg i s :=
  readReg_congr (by simp) i

/-- The register file a handler is given reads as the architectural registers (`47_fence_system.md` R203). -/
theorem archRegs_getElem (s : State) (i : RegIdx) : (archRegs s)[i.toNat]'i.isLt = readReg i s := by
  unfold archRegs readReg
  by_cases hi : i = 0
  · subst hi; exact Vector.getElem_set_self _
  · rw [if_neg hi]
    exact Vector.getElem_set_ne _ i.isLt (cell_ne_zero hi)

/-- Clearing register 0 first gives the handler the same registers. -/
@[simp] theorem archRegs_beginDispatch (s : State) : archRegs (beginDispatch s) = archRegs s := by
  simp [archRegs]

@[simp] theorem archRegs_busRead (a : Word) (s : State) : archRegs (busRead a s) = archRegs s := by
  simp [archRegs]

end Sys2Proof.Machine
end

