-- ==== Sys2Proof/Laws/Access.lean ====
section
/-! SUPPORT. What each memory access can do, said once: the checks as arithmetic on addresses, and each access as its
value and state where it succeeds, its trap where it does not (`20_memory.md` R35 to R41). -/

namespace Sys2Proof.Machine

/-! ## Addresses as numbers -/

theorem extractLow_toNat (a : Word) (n : Nat) : (a.extractLsb' 0 n).toNat = a.toNat % 2 ^ n := by
  simp [BitVec.extractLsb'_toNat]

/-- `a[1:0] != 0` is `a % 4 != 0` (R35). -/
theorem misaligned_iff (a : Word) : misaligned a = true ↔ a.toNat % 4 ≠ 0 := by
  unfold misaligned
  rw [bne_iff_ne, ne_eq, ← BitVec.toNat_inj, extractLow_toNat]
  rfl

/-- `a[0] != 0` is `a % 2 != 0` (R37). -/
theorem oddAddress_iff (a : Word) : (a.extractLsb' 0 1 != 0) = true ↔ a.toNat % 2 ≠ 0 := by
  rw [bne_iff_ne, ne_eq, ← BitVec.toNat_inj, extractLow_toNat]
  rfl

/-- `addr & ~3` is the next multiple of 4 at or below the address (R34). -/
theorem wordAddr_toNat (a : Word) : (wordAddr a).toNat = a.toNat - a.toNat % 4 := by
  have hsplit : wordAddr a = (a.extractLsb' 2 30 ++ 0#2 : BitVec 32) := by
    unfold wordAddr
    apply BitVec.eq_of_getLsbD_eq
    intro i hi
    have h3 : (3 : Word).getLsbD i = decide (i < 2) := by
      have : ∀ j : Fin 32, (3 : Word).getLsbD j.val = decide (j.val < 2) := by decide
      exact this ⟨i, hi⟩
    simp only [BitVec.getLsbD_and, BitVec.getLsbD_not, h3, BitVec.getLsbD_append, BitVec.getLsbD_extractLsb']
    by_cases h : i < 2
    · simp [h]
    · simp [h, hi, show i - 2 < 30 by omega, show 2 + (i - 2) = i by omega]
  rw [hsplit, BitVec.toNat_append, BitVec.extractLsb'_toNat, Nat.shiftLeft_eq, Nat.shiftRight_eq_div_pow]
  have := a.isLt
  simp
  omega

/-- The word address is aligned. -/
theorem wordAddr_aligned (a : Word) : (wordAddr a).toNat % 4 = 0 := by rw [wordAddr_toNat]; omega

/-- An aligned address is its own word address. -/
theorem wordAddr_of_aligned {a : Word} (h : a.toNat % 4 = 0) : wordAddr a = a :=
  BitVec.eq_of_toNat_eq (by rw [wordAddr_toNat]; omega)

/-- The word of an address on the bus is the word of its word address (R46). -/
theorem wordAddr_busAddr (a : Word) : (wordAddr a).extractLsb' 2 30 = a.extractLsb' 2 30 := by
  apply BitVec.eq_of_toNat_eq
  rw [BitVec.extractLsb'_toNat, BitVec.extractLsb'_toNat, wordAddr_toNat, Nat.shiftRight_eq_div_pow,
    Nat.shiftRight_eq_div_pow]
  omega

/-- A byte's bit offset in its word (R38). -/
theorem byteShift_eq (a : Word) : byteShift a = 8 * (a.toNat % 4) := by
  unfold byteShift
  have : (a &&& 3).toNat = a.toNat % 4 := by
    rw [BitVec.toNat_and]
    exact Nat.and_two_pow_sub_one_eq_mod a.toNat 2
  rw [this]

/-- An even address's halfword offset in its word (R37). -/
theorem halfShift_eq {a : Word} (h : a.toNat % 2 = 0) : halfShift a = 8 * (a.toNat % 4) := by
  unfold halfShift
  have h3 : (a &&& 3).toNat = a.toNat % 4 := by
    rw [BitVec.toNat_and]
    exact Nat.and_two_pow_sub_one_eq_mod a.toNat 2
  have h2 : a &&& 2 = a &&& 3 := by
    apply BitVec.eq_of_getLsbD_eq
    intro i hi
    have h0 : a.getLsbD 0 = false := by
      rw [BitVec.getLsbD, Nat.testBit_zero]; simpa using by omega
    match i with
    | 0 => rw [BitVec.getLsbD_and, BitVec.getLsbD_and, h0, Bool.false_and, Bool.false_and]
    | 1 => simp
    | n + 2 =>
      have e2 : ∀ j : Fin 32, 2 ≤ j.val → (2 : Word).getLsbD j.val = (3 : Word).getLsbD j.val := by decide
      rw [BitVec.getLsbD_and, BitVec.getLsbD_and, e2 ⟨n + 2, hi⟩ (by simp)]
  rw [h2, h3]

/-! ## The checked word access (R35) -/

theorem beyondMemory_iff (a : Word) (s : State) : beyondMemory a s = true ↔ s.params.memSize < a.toNat + 4 := by
  simp [beyondMemory]

theorem portDomain_iff (a : Word) (s : State) : portDomain a s = true ↔ WordAccessible a s := by
  unfold portDomain
  rw [Bool.and_eq_true, beq_iff_eq, ← BitVec.toNat_inj, extractLow_toNat]
  simp

/-- R31: an aligned word inside memory is read. -/
theorem portRead_ok {a : Word} {s : State} (h : WordAccessible a s) :
    portRead a s = .ok (Memory.readWord s.mem a.toNat) (busRead a s) := by
  rw [portRead, if_pos ((portDomain_iff a s).mpr h)]

/-- R32: an aligned word inside memory is written. -/
theorem portWrite_ok {a : Word} {s : State} (h : WordAccessible a s) (w : Word) :
    portWrite a w s = .ok () (busWrite a w { s with mem := Memory.writeWord s.mem a.toNat w }) := by
  rw [portWrite, if_pos ((portDomain_iff a s).mpr h)]

theorem wordRead_ok {a : Word} {s : State} (h : WordAccessible a s) :
    wordRead a s = .ok (Memory.readWord s.mem a.toNat) (busRead a s) := by
  have h1 : ¬ misaligned a = true := fun hm => (misaligned_iff a).mp hm h.1
  have h2 : ¬ beyondMemory a s = true := fun hb => by have := (beyondMemory_iff a s).mp hb; have := h.2; omega
  rw [wordRead, if_neg h1, if_neg h2, portRead_ok h]

theorem wordRead_misaligned {a : Word} {s : State} (h : a.toNat % 4 ≠ 0) :
    wordRead a s = .trap (.accessFault .misaligned a) := by
  rw [wordRead, if_pos ((misaligned_iff a).mpr h)]

theorem wordRead_outOfRange {a : Word} {s : State} (h : a.toNat % 4 = 0) (hr : s.params.memSize < a.toNat + 4) :
    wordRead a s = .trap (.accessFault .outOfRange a) := by
  rw [wordRead, if_neg (fun hm => (misaligned_iff a).mp hm h), if_pos ((beyondMemory_iff a s).mpr hr)]

theorem wordWrite_ok {a : Word} {s : State} (h : WordAccessible a s) (w : Word) :
    wordWrite a w s = .ok () (busWrite a w { s with mem := Memory.writeWord s.mem a.toNat w }) := by
  have h1 : ¬ misaligned a = true := fun hm => (misaligned_iff a).mp hm h.1
  have h2 : ¬ beyondMemory a s = true := fun hb => by have := (beyondMemory_iff a s).mp hb; have := h.2; omega
  rw [wordWrite, if_neg h1, if_neg h2, portWrite_ok h]

theorem wordWrite_misaligned {a : Word} {s : State} (h : a.toNat % 4 ≠ 0) (w : Word) :
    wordWrite a w s = .trap (.accessFault .misaligned a) := by
  rw [wordWrite, if_pos ((misaligned_iff a).mpr h)]

theorem wordWrite_outOfRange {a : Word} {s : State} (h : a.toNat % 4 = 0) (hr : s.params.memSize < a.toNat + 4)
    (w : Word) : wordWrite a w s = .trap (.accessFault .outOfRange a) := by
  rw [wordWrite, if_neg (fun hm => (misaligned_iff a).mp hm h), if_pos ((beyondMemory_iff a s).mpr hr)]

/-! ## The composed accesses (R36 to R41) -/

/-- The word address of a byte address inside memory is accessible. -/
theorem wordAddr_accessible {a : Word} {s : State} (h : InMemory a s) : WordAccessible (wordAddr a) s := by
  constructor
  · exact wordAddr_aligned a
  · rw [wordAddr_toNat]; exact h

theorem ushiftRight_extract (w : Word) (sh n : Nat) : (w >>> sh).extractLsb' 0 n = w.extractLsb' sh n := by
  apply BitVec.eq_of_getLsbD_eq
  intro i hi
  simp [BitVec.getLsbD_extractLsb', BitVec.getLsbD_ushiftRight]

/-- R38: a byte read is a lane of the containing word. -/
theorem memReadByte_ok {a : Word} {s : State} (h : InMemory a s) :
    memReadByte a s = .ok (byteLane (containingWord a s) (a.toNat % 4)) (busRead (wordAddr a) s) := by
  rw [memReadByte, wordRead_ok (wordAddr_accessible h), Access.bind, ushiftRight_extract, byteShift_eq, wordAddr_toNat]
  rfl

theorem memReadByte_outOfRange {a : Word} {s : State} (h : ¬ InMemory a s) :
    memReadByte a s = .trap (.accessFault .outOfRange (wordAddr a)) := by
  rw [memReadByte, wordRead_outOfRange (wordAddr_aligned a) (by rw [wordAddr_toNat]; omega), Access.bind]

/-- R37: an even halfword read is 16 bits of the containing word. -/
theorem memReadHalf_ok {a : Word} {s : State} (he : a.toNat % 2 = 0) (h : InMemory a s) :
    memReadHalf a s = .ok ((containingWord a s).extractLsb' (8 * (a.toNat % 4)) 16) (busRead (wordAddr a) s) := by
  rw [memReadHalf, if_neg (fun ho => (oddAddress_iff a).mp ho he), wordRead_ok (wordAddr_accessible h), Access.bind,
    ushiftRight_extract, halfShift_eq he, wordAddr_toNat]
  rfl

theorem memReadHalf_misaligned {a : Word} {s : State} (he : a.toNat % 2 ≠ 0) :
    memReadHalf a s = .trap (.accessFault .misaligned a) := by
  rw [memReadHalf, if_pos ((oddAddress_iff a).mpr he)]

theorem memReadHalf_outOfRange {a : Word} {s : State} (he : a.toNat % 2 = 0) (h : ¬ InMemory a s) :
    memReadHalf a s = .trap (.accessFault .outOfRange (wordAddr a)) := by
  rw [memReadHalf, if_neg (fun ho => (oddAddress_iff a).mp ho he),
    wordRead_outOfRange (wordAddr_aligned a) (by rw [wordAddr_toNat]; omega), Access.bind]

/-- The state after a sub-word store that replaces the containing word by `w`: a read, then a write (R47). -/
def afterSubwordStore (a w : Word) (s : State) : State :=
  busWrite (wordAddr a) w { busRead (wordAddr a) s with mem := Memory.writeWord s.mem (a.toNat - a.toNat % 4) w }

/-- R41: a byte write replaces one lane of the containing word. -/
theorem memWriteByte_ok {a : Word} {s : State} (h : InMemory a s) (v : Word) :
    memWriteByte a v s = .ok () (afterSubwordStore a
      (replaceBits (containingWord a s) 0x000000FF (zext 8 (v.extractLsb' 0 8)) (8 * (a.toNat % 4))) s) := by
  have hacc := wordAddr_accessible h
  have hacc' : WordAccessible (wordAddr a) (busRead (wordAddr a) s) := by
    rw [WordAccessible, busRead_params]; exact hacc
  rw [memWriteByte, wordRead_ok hacc, Access.bind, wordWrite_ok hacc']
  simp only [byteShift_eq, wordAddr_toNat, busRead_mem, afterSubwordStore, containingWord]

theorem memWriteByte_outOfRange {a : Word} {s : State} (h : ¬ InMemory a s) (v : Word) :
    memWriteByte a v s = .trap (.accessFault .outOfRange (wordAddr a)) := by
  rw [memWriteByte, wordRead_outOfRange (wordAddr_aligned a) (by rw [wordAddr_toNat]; omega), Access.bind]

/-- R40: an even halfword write replaces two lanes of the containing word. -/
theorem memWriteHalf_ok {a : Word} {s : State} (he : a.toNat % 2 = 0) (h : InMemory a s) (v : Word) :
    memWriteHalf a v s = .ok () (afterSubwordStore a
      (replaceBits (containingWord a s) 0x0000FFFF (zext 16 (v.extractLsb' 0 16)) (8 * (a.toNat % 4))) s) := by
  have hacc := wordAddr_accessible h
  have hacc' : WordAccessible (wordAddr a) (busRead (wordAddr a) s) := by
    rw [WordAccessible, busRead_params]; exact hacc
  rw [memWriteHalf, if_neg (fun ho => (oddAddress_iff a).mp ho he), wordRead_ok hacc, Access.bind, wordWrite_ok hacc']
  simp only [halfShift_eq he, wordAddr_toNat, busRead_mem, afterSubwordStore, containingWord]

theorem memWriteHalf_misaligned {a : Word} {s : State} (he : a.toNat % 2 ≠ 0) (v : Word) :
    memWriteHalf a v s = .trap (.accessFault .misaligned a) := by
  rw [memWriteHalf, if_pos ((oddAddress_iff a).mpr he)]

theorem memWriteHalf_outOfRange {a : Word} {s : State} (he : a.toNat % 2 = 0) (h : ¬ InMemory a s) (v : Word) :
    memWriteHalf a v s = .trap (.accessFault .outOfRange (wordAddr a)) := by
  rw [memWriteHalf, if_neg (fun ho => (oddAddress_iff a).mp ho he),
    wordRead_outOfRange (wordAddr_aligned a) (by rw [wordAddr_toNat]; omega), Access.bind]

/-! ## The lanes a sub-word store replaces (R40, R41) -/

theorem getLsbD_mask (n i : Nat) (hi : i < 32) :
    (BitVec.ofNat 32 (2 ^ n - 1)).getLsbD i = decide (i < n) := by
  rw [BitVec.getLsbD_ofNat, Nat.testBit_two_pow_sub_one]
  simp [hi]

/-- Bit by bit, `replaceBits` takes `n` bits from `v` at the offset and the rest from `w`. -/
theorem getLsbD_replaceBits (w : Word) (n : Nat) (v : BitVec n) (sh i : Nat) (hi : i < 32) :
    (replaceBits w (BitVec.ofNat 32 (2 ^ n - 1)) (zext n v) sh).getLsbD i =
      if sh ≤ i ∧ i < sh + n then v.getLsbD (i - sh) else w.getLsbD i := by
  unfold replaceBits zext
  simp only [BitVec.getLsbD_or, BitVec.getLsbD_and, BitVec.getLsbD_not, BitVec.getLsbD_shiftLeft,
    BitVec.getLsbD_setWidth]
  rw [getLsbD_mask n (i - sh) (by omega)]
  by_cases h1 : i < sh
  · simp [h1, hi, show ¬ (sh ≤ i) by omega]
  · by_cases h2 : i < sh + n
    · simp [h1, h2, hi, show sh ≤ i by omega, show i - sh < n by omega, show i - sh < 32 by omega]
    · have hz : v.getLsbD (i - sh) = false := BitVec.getLsbD_of_ge _ _ (by omega)
      simp [h1, h2, hi, show ¬ (i - sh < n) by omega, hz]

/-- R41: one lane replaced, "all other bits of that word unchanged". -/
theorem byteLane_replaceByte (w v : Word) (k j : Nat) (hk : k < 4) (hj : j < 4) :
    byteLane (replaceBits w 0x000000FF (zext 8 (v.extractLsb' 0 8)) (8 * k)) j =
      if j = k then byteLane v 0 else byteLane w j := by
  unfold byteLane
  apply BitVec.eq_of_getLsbD_eq
  intro i hi
  have := getLsbD_replaceBits w 8 (v.extractLsb' 0 8) (8 * k) (8 * j + i) (by omega)
  rw [BitVec.getLsbD_extractLsb', show (0x000000FF : Word) = BitVec.ofNat 32 (2 ^ 8 - 1) from rfl, this]
  by_cases h : j = k
  · subst h
    simp [hi]
  · rw [if_neg (by omega)]
    simp [h, hi]

/-- R40: two lanes replaced, the others unchanged. -/
theorem byteLane_replaceHalf (w v : Word) (k j : Nat) (hj : j < 4) :
    byteLane (replaceBits w 0x0000FFFF (zext 16 (v.extractLsb' 0 16)) (8 * k)) j =
      if k ≤ j ∧ j < k + 2 then byteLane v (j - k) else byteLane w j := by
  unfold byteLane
  apply BitVec.eq_of_getLsbD_eq
  intro i hi
  have := getLsbD_replaceBits w 16 (v.extractLsb' 0 16) (8 * k) (8 * j + i) (by omega)
  rw [BitVec.getLsbD_extractLsb', show (0x0000FFFF : Word) = BitVec.ofNat 32 (2 ^ 16 - 1) from rfl, this]
  by_cases h : k ≤ j ∧ j < k + 2
  · rw [if_pos (by omega), if_pos h]
    simp only [hi, decide_true, Bool.true_and, BitVec.getLsbD_extractLsb', show 8 * j + i - 8 * k < 16 by omega]
    congr 1; omega
  · rw [if_neg (by omega), if_neg h]
    simp [hi]

end Sys2Proof.Machine
end

