-- ==== Sys2Proof/Laws/Alu.lean ====
section
/-! SUPPORT. What the shared operand forms do, and the arithmetic operations as numbers (`41_alu.md` R110 to R130). -/

namespace Sys2Proof.Machine

/-- Every form that writes one result and goes on. -/
theorem computes_result (rd : RegIdx) (v : Word) (s : State) : Computes (result rd v s) s rd v (s.pc + 4) := by
  refine ⟨_, rfl, fun i => ?_, rfl, fun _ => rfl, ⟨rfl, rfl, rfl, rfl⟩, rfl, rfl⟩
  rw [readReg_retire, readReg_writeReg]

/-- Every jump. -/
theorem computes_linkAndJump (rd : RegIdx) (target : Word) (s : State) :
    Computes (linkAndJump rd target s) s rd (s.pc + 4) target := by
  refine ⟨_, rfl, fun i => ?_, rfl, fun _ => rfl, ⟨rfl, rfl, rfl, rfl⟩, rfl, rfl⟩
  rw [readReg_retireTo, readReg_writeReg]

/-- Every branch. -/
theorem continues_branch (p : Prop) [Decidable p] (imm : Word) (s : State) :
    Continues (.next (if decide p then retireTo (relativeTarget imm s) s else retire s)) s
      (if p then s.pc + imm else s.pc + 4) := by
  by_cases h : p
  · simp only [h, decide_true, if_true]
    exact ⟨_, rfl, rfl, fun i => by simp, fun _ => rfl, ⟨rfl, rfl, rfl, rfl⟩, rfl, rfl⟩
  · simp only [h, decide_false, if_false, Bool.false_eq_true]
    exact ⟨_, rfl, rfl, fun i => by simp, fun _ => rfl, ⟨rfl, rfl, rfl, rfl⟩, rfl, rfl⟩

theorem setIf_decide (p : Prop) [Decidable p] : setIf (decide p) = if p then 1 else 0 := by simp [setIf]

theorem shiftLeft_number (a b : Word) : shiftLeft a b = BitVec.ofNat 32 (a.toNat * 2 ^ (b.toNat % 32)) := by
  apply BitVec.eq_of_toNat_eq
  simp [shiftLeft, shiftAmount, Nat.shiftLeft_eq]

theorem shiftRightLogical_number (a b : Word) :
    shiftRightLogical a b = BitVec.ofNat 32 (a.toNat / 2 ^ (b.toNat % 32)) := by
  apply BitVec.eq_of_toNat_eq
  simp only [shiftRightLogical, shiftAmount, BitVec.toNat_ushiftRight, BitVec.toNat_ofNat, Nat.shiftRight_eq_div_pow,
    extractLow_toNat]
  exact (Nat.mod_eq_of_lt (Nat.lt_of_le_of_lt (Nat.div_le_self _ _) a.isLt)).symm

theorem shiftRightArith_number (a b : Word) : shiftRightArith a b = BitVec.ofInt 32 (a.toInt / 2 ^ (b.toNat % 32)) := by
  rw [← BitVec.ofInt_toInt (x := shiftRightArith a b)]
  simp only [shiftRightArith, shiftAmount, extractLow_toNat, BitVec.toInt_sshiftRight, Int.shiftRight_eq_div_pow]
  norm_num

end Sys2Proof.Machine
end

