-- ==== Sys2Proof/Laws/Decode.lean ====
section
/-! SUPPORT. The opcode map as fields, and the decoder as the unique row that selects a word (`30_encoding.md` R72 to
R74), and what each format of the encoder puts in each field (R65 to R70). -/

namespace Sys2Proof

/-! ## The opcode map -/

/-- "The 40 patterns are pairwise disjoint" (R72). -/
theorem rows_disjoint : ∀ k ∈ allKinds, ∀ q ∈ allKinds, k = q ∨ k.row.disjoint q.row = true := by decide

/-- The table has a row for every kind. -/
theorem mem_allKinds (k : Kind) : k ∈ allKinds := by cases k <;> decide

/-- Each row is filed under its own kind. -/
theorem row_kind (k : Kind) : k.row.kind = k := by cases k <;> rfl

/-- No word is selected by two disjoint rows. -/
theorem Row.not_both_select {r q : Row} (h : r.disjoint q = true) {w : Word} (hr : r.selects w = true) :
    ¬ q.selects w = true := by
  intro hq
  unfold Row.disjoint at h
  unfold Row.selects at hr hq
  have e1 := eq_of_beq hr
  have e2 := eq_of_beq hq
  refine (bne_iff_ne.mp h) ?_
  rw [← e1, ← e2]
  apply BitVec.eq_of_getLsbD_eq
  intro i hi
  rw [show (0 : Word) = 0#32 from rfl, BitVec.getLsbD_zero]
  simp only [BitVec.getLsbD_and, BitVec.getLsbD_xor]
  cases r.mask.getLsbD i <;> cases q.mask.getLsbD i <;> cases w.getLsbD i <;> rfl

/-- R72: "no word matches two rows". -/
theorem selects_unique {k q : Kind} {w : Word} (hk : k.row.selects w = true) (hq : q.row.selects w = true) :
    k = q := by
  rcases rows_disjoint k (mem_allKinds k) q (mem_allKinds q) with h | h
  · exact h
  · exact absurd hq (Row.not_both_select h hk)

/-- R74: the row that selects a word is the one the decoder takes. -/
theorem decodeRecord_of_selects {k : Kind} {w : Word} (h : k.row.selects w = true) :
    decodeRecord w = .ok (recordOf k w) := by
  unfold decodeRecord
  cases hf : allKinds.find? (fun k => k.row.selects w) with
  | none => exact absurd h (List.find?_eq_none.mp hf k (mem_allKinds k))
  | some q =>
    have hq : q.row.selects w = true := List.find?_some (p := fun k : Kind => k.row.selects w) hf
    rw [selects_unique h hq]

theorem decode_of_selects {k : Kind} {w : Word} (h : k.row.selects w = true) :
    decode w = .ok (recordOf k w).toInstr := by
  rw [decode, decodeRecord_of_selects h]

/-- R77: a word no row selects is rejected. -/
theorem decode_of_none_selects {w : Word} (h : ∀ k : Kind, ¬ k.row.selects w = true) :
    decode w = .error (.unrecognizedEncoding w) := by
  have hf : allKinds.find? (fun k => k.row.selects w) = none := List.find?_eq_none.mpr fun k _ => h k
  rw [decode, decodeRecord, hf]

/-- The decoder's answer, said once: the instruction of the one row that selects the word, or a rejection. -/
theorem decode_cases (w : Word) :
    (∃ k : Kind, k.row.selects w = true ∧ decode w = .ok (recordOf k w).toInstr) ∨
      ((∀ k : Kind, ¬ k.row.selects w = true) ∧ decode w = .error (.unrecognizedEncoding w)) := by
  by_cases h : ∃ k : Kind, k.row.selects w = true
  · obtain ⟨k, hk⟩ := h
    exact .inl ⟨k, hk, decode_of_selects hk⟩
  · exact .inr ⟨fun k hk => h ⟨k, hk⟩, decode_of_none_selects fun k hk => h ⟨k, hk⟩⟩

/-- A record's instruction is of the record's kind. -/
theorem toInstr_kind (r : InstructionRecord) : r.toInstr.kind = r.kind := by
  obtain ⟨k, rd, rs1, rs2, imm⟩ := r
  cases k <;> rfl

/-- A decoded word is selected by the row of the instruction's kind. -/
theorem selects_of_decode {w : Word} {i : Instr} (h : decode w = .ok i) :
    i.kind.row.selects w = true ∧ i = (recordOf i.kind w).toInstr := by
  rcases decode_cases w with ⟨k, hk, hd⟩ | ⟨_, hd⟩
  · rw [hd] at h
    have hi : i = (recordOf k w).toInstr := (Except.ok.inj h).symm
    have hkind : i.kind = k := by rw [hi, toInstr_kind]; rfl
    rw [hkind]
    exact ⟨hk, hi⟩
  · rw [hd] at h; cases h

/-! ## A row's pattern as fields -/

/-- A masked comparison bit by bit. -/
theorem and_mask_eq_iff (w mask p : Word) (hp : p &&& mask = p) :
    w &&& mask = p ↔ ∀ i < 32, mask.getLsbD i = true → w.getLsbD i = p.getLsbD i := by
  constructor
  · intro h i _ hm
    rw [← h, BitVec.getLsbD_and, hm, Bool.and_true]
  · intro h
    apply BitVec.eq_of_getLsbD_eq
    intro i hi
    rw [BitVec.getLsbD_and]
    cases hm : mask.getLsbD i with
    | true => rw [Bool.and_true, h i hi hm]
    | false =>
      rw [Bool.and_false, ← hp, BitVec.getLsbD_and, hm, Bool.and_false]

/-- Equal fields are equal bits. -/
theorem extract_eq_iff (w p : Word) (lo len : Nat) :
    w.extractLsb' lo len = p.extractLsb' lo len ↔ ∀ i, lo ≤ i → i < lo + len → w.getLsbD i = p.getLsbD i := by
  constructor
  · intro h i hlo hhi
    have := congrArg (fun v => v.getLsbD (i - lo)) h
    simpa [BitVec.getLsbD_extractLsb', show i - lo < len by omega, show lo + (i - lo) = i by omega] using this
  · intro h
    apply BitVec.eq_of_getLsbD_eq
    intro i hi
    simp only [BitVec.getLsbD_extractLsb', hi, decide_true, Bool.true_and]
    exact h (lo + i) (by omega) (by omega)

theorem mask7F_bits : ∀ i < 32, (0x0000007F : Word).getLsbD i = decide (i < 7) := by decide
theorem mask707F_bits : ∀ i < 32, (0x0000707F : Word).getLsbD i = decide (i < 7 ∨ (12 ≤ i ∧ i < 15)) := by decide
theorem maskFE00707F_bits : ∀ i < 32,
    (0xFE00707F : Word).getLsbD i = decide (i < 7 ∨ (12 ≤ i ∧ i < 15) ∨ 25 ≤ i) := by decide

theorem and_7F_eq_iff (w p : Word) (hp : p &&& 0x0000007F = p) :
    w &&& 0x0000007F = p ↔ w.extractLsb' 0 7 = p.extractLsb' 0 7 := by
  rw [and_mask_eq_iff w _ p hp, extract_eq_iff]
  constructor
  · intro h i _ hi
    exact h i (by omega) (by rw [mask7F_bits i (by omega)]; simp; omega)
  · intro h i hi hm
    rw [mask7F_bits i hi, decide_eq_true_iff] at hm
    exact h i (by omega) (by omega)

theorem and_707F_eq_iff (w p : Word) (hp : p &&& 0x0000707F = p) :
    w &&& 0x0000707F = p ↔
      w.extractLsb' 0 7 = p.extractLsb' 0 7 ∧ w.extractLsb' 12 3 = p.extractLsb' 12 3 := by
  rw [and_mask_eq_iff w _ p hp, extract_eq_iff, extract_eq_iff]
  constructor
  · intro h
    exact ⟨fun i _ hi => h i (by omega) (by rw [mask707F_bits i (by omega)]; simp; omega),
      fun i _ hi => h i (by omega) (by rw [mask707F_bits i (by omega)]; simp; omega)⟩
  · rintro ⟨h1, h2⟩ i hi hm
    rw [mask707F_bits i hi, decide_eq_true_iff] at hm
    rcases hm with hm | hm
    · exact h1 i (by omega) (by omega)
    · exact h2 i (by omega) (by omega)

theorem and_FE00707F_eq_iff (w p : Word) (hp : p &&& 0xFE00707F = p) :
    w &&& 0xFE00707F = p ↔
      w.extractLsb' 0 7 = p.extractLsb' 0 7 ∧ w.extractLsb' 12 3 = p.extractLsb' 12 3 ∧
        w.extractLsb' 25 7 = p.extractLsb' 25 7 := by
  rw [and_mask_eq_iff w _ p hp, extract_eq_iff, extract_eq_iff, extract_eq_iff]
  constructor
  · intro h
    exact ⟨fun i _ hi => h i (by omega) (by rw [maskFE00707F_bits i (by omega)]; simp; omega),
      fun i _ hi => h i (by omega) (by rw [maskFE00707F_bits i (by omega)]; simp; omega),
      fun i _ hi => h i (by omega) (by rw [maskFE00707F_bits i (by omega)]; simp; omega)⟩
  · rintro ⟨h1, h2, h3⟩ i hi hm
    rw [maskFE00707F_bits i hi, decide_eq_true_iff] at hm
    rcases hm with hm | hm | hm
    · exact h1 i (by omega) (by omega)
    · exact h2 i (by omega) (by omega)
    · exact h3 i (by omega) (by omega)

/-- A row selects the words whose fixed fields are the row's columns (R72); ECALL and EBREAK fix the whole word
(R76). -/
theorem selects_iff (k : Kind) (w : Word) :
    k.row.selects w = true ↔
      match k.row.format with
      | .iFixed => w = k.row.pattern
      | _ => w.extractLsb' 0 7 = k.row.opcode ∧ (∀ f ∈ k.row.funct3, w.extractLsb' 12 3 = f) ∧
          (∀ f ∈ k.row.funct7, w.extractLsb' 25 7 = f) := by
  have hall : w &&& 0xFFFFFFFF = w := BitVec.and_allOnes (x := w)
  unfold Row.selects
  rw [beq_iff_eq]
  cases k <;> simp only [Kind.row]
  case LUI | AUIPC | JAL =>
    rw [and_7F_eq_iff _ _ (by decide)]; simp
  case ECALL | EBREAK => rw [hall]
  case SLLI | SRLI | SRAI | ADD | SUB | SLL | SLT | SLTU | XOR | SRL | SRA | OR | AND =>
    rw [and_FE00707F_eq_iff _ _ (by decide)]; simp
  all_goals rw [and_707F_eq_iff _ _ (by decide)]; simp

/-! ## The fields of an encoded word -/

/-- A field of a concatenation that lies in its low part. -/
theorem extract_append_low {n m : Nat} (a : BitVec n) (b : BitVec m) (lo len : Nat) (h : lo + len ≤ m) :
    (a ++ b).extractLsb' lo len = b.extractLsb' lo len := by
  apply BitVec.eq_of_getLsbD_eq
  intro i hi
  simp [BitVec.getLsbD_append, show lo + i < m by omega]

/-- A field of a concatenation that lies in its high part. -/
theorem extract_append_high {n m : Nat} (a : BitVec n) (b : BitVec m) (lo len : Nat) (h : m ≤ lo) :
    (a ++ b).extractLsb' lo len = a.extractLsb' (lo - m) len := by
  apply BitVec.eq_of_getLsbD_eq
  intro i hi
  simp only [BitVec.getLsbD_extractLsb', BitVec.getLsbD_append, hi, decide_true, Bool.true_and,
    if_neg (show ¬ lo + i < m by omega)]
  congr 1
  omega

/-- A value taken whole is itself. -/
theorem extract_self {n : Nat} (a : BitVec n) : a.extractLsb' 0 n = a := by simp

/-- Two neighbouring fields are one field. -/
theorem extract_append_extract (w : Word) (lo a b : Nat) :
    w.extractLsb' (lo + b) a ++ w.extractLsb' lo b = w.extractLsb' lo (a + b) := by
  apply BitVec.eq_of_getLsbD_eq
  intro i hi
  simp only [BitVec.getLsbD_extractLsb', BitVec.getLsbD_append, hi, decide_true, Bool.true_and]
  split
  · simp [*]
  · rw [decide_eq_true (by omega), Bool.true_and]; congr 1; omega

end Sys2Proof
end

