-- ==== Sys2Proof/Laws/Encoding.lean ====
section
/-! SUPPORT. What each format of the encoder puts in each field (`30_encoding.md` R65), and what each immediate
function of the decoder reads back (R66 to R70). -/

namespace Sys2Proof

/-! ## The fields of each format -/

theorem encodeR_fields (k : Kind) (rs2 rs1 rd : RegIdx) :
    (encodeR k rs2 rs1 rd).extractLsb' 0 7 = k.opcode ∧ (encodeR k rs2 rs1 rd).extractLsb' 12 3 = k.funct3 ∧
      (encodeR k rs2 rs1 rd).extractLsb' 25 7 = k.funct7 ∧ (encodeR k rs2 rs1 rd).extractLsb' 7 5 = rd ∧
      (encodeR k rs2 rs1 rd).extractLsb' 15 5 = rs1 ∧ (encodeR k rs2 rs1 rd).extractLsb' 20 5 = rs2 := by
  unfold encodeR
  refine ⟨?_, ?_, ?_, ?_, ?_, ?_⟩ <;>
    simp (disch := omega) only [extract_append_low, extract_append_high, Nat.reduceSub, extract_self]

theorem encodeI_fields (k : Kind) (imm : Word) (rs1 rd : RegIdx) :
    (encodeI k imm rs1 rd).extractLsb' 0 7 = k.opcode ∧ (encodeI k imm rs1 rd).extractLsb' 12 3 = k.funct3 ∧
      (encodeI k imm rs1 rd).extractLsb' 7 5 = rd ∧ (encodeI k imm rs1 rd).extractLsb' 15 5 = rs1 ∧
      (encodeI k imm rs1 rd).extractLsb' 20 12 = imm.extractLsb' 0 12 := by
  unfold encodeI
  refine ⟨?_, ?_, ?_, ?_, ?_⟩ <;>
    simp (disch := omega) only [extract_append_low, extract_append_high, Nat.reduceSub, extract_self]

theorem encodeS_fields (k : Kind) (imm : Word) (rs2 rs1 : RegIdx) :
    (encodeS k imm rs2 rs1).extractLsb' 0 7 = k.opcode ∧ (encodeS k imm rs2 rs1).extractLsb' 12 3 = k.funct3 ∧
      (encodeS k imm rs2 rs1).extractLsb' 15 5 = rs1 ∧ (encodeS k imm rs2 rs1).extractLsb' 20 5 = rs2 ∧
      (encodeS k imm rs2 rs1).extractLsb' 25 7 = imm.extractLsb' 5 7 ∧
      (encodeS k imm rs2 rs1).extractLsb' 7 5 = imm.extractLsb' 0 5 := by
  unfold encodeS
  refine ⟨?_, ?_, ?_, ?_, ?_, ?_⟩ <;>
    simp (disch := omega) only [extract_append_low, extract_append_high, Nat.reduceSub, extract_self]

theorem encodeB_fields (k : Kind) (imm : Word) (rs2 rs1 : RegIdx) :
    (encodeB k imm rs2 rs1).extractLsb' 0 7 = k.opcode ∧ (encodeB k imm rs2 rs1).extractLsb' 12 3 = k.funct3 ∧
      (encodeB k imm rs2 rs1).extractLsb' 15 5 = rs1 ∧ (encodeB k imm rs2 rs1).extractLsb' 20 5 = rs2 ∧
      (encodeB k imm rs2 rs1).extractLsb' 31 1 = imm.extractLsb' 12 1 ∧
      (encodeB k imm rs2 rs1).extractLsb' 7 1 = imm.extractLsb' 11 1 ∧
      (encodeB k imm rs2 rs1).extractLsb' 25 6 = imm.extractLsb' 5 6 ∧
      (encodeB k imm rs2 rs1).extractLsb' 8 4 = imm.extractLsb' 1 4 := by
  unfold encodeB
  refine ⟨?_, ?_, ?_, ?_, ?_, ?_, ?_, ?_⟩ <;>
    simp (disch := omega) only [extract_append_low, extract_append_high, Nat.reduceSub, extract_self]

theorem encodeU_fields (k : Kind) (imm : Word) (rd : RegIdx) :
    (encodeU k imm rd).extractLsb' 0 7 = k.opcode ∧ (encodeU k imm rd).extractLsb' 7 5 = rd ∧
      (encodeU k imm rd).extractLsb' 12 20 = imm.extractLsb' 12 20 := by
  unfold encodeU
  refine ⟨?_, ?_, ?_⟩ <;>
    simp (disch := omega) only [extract_append_low, extract_append_high, Nat.reduceSub, extract_self]

theorem encodeJ_fields (k : Kind) (imm : Word) (rd : RegIdx) :
    (encodeJ k imm rd).extractLsb' 0 7 = k.opcode ∧ (encodeJ k imm rd).extractLsb' 7 5 = rd ∧
      (encodeJ k imm rd).extractLsb' 31 1 = imm.extractLsb' 20 1 ∧
      (encodeJ k imm rd).extractLsb' 12 8 = imm.extractLsb' 12 8 ∧
      (encodeJ k imm rd).extractLsb' 20 1 = imm.extractLsb' 11 1 ∧
      (encodeJ k imm rd).extractLsb' 21 10 = imm.extractLsb' 1 10 := by
  unfold encodeJ
  refine ⟨?_, ?_, ?_, ?_, ?_, ?_⟩ <;>
    simp (disch := omega) only [extract_append_low, extract_append_high, Nat.reduceSub, extract_self]

/-! ## The immediates read back -/

theorem immI_encodeI {imm : Word} (h : fits12 imm = true) (k : Kind) (rs1 rd : RegIdx) :
    immI (encodeI k imm rs1 rd) = imm := by
  rw [immI, (encodeI_fields k imm rs1 rd).2.2.2.2]
  exact (eq_of_beq h).symm

theorem immS_encodeS {imm : Word} (h : fits12 imm = true) (k : Kind) (rs2 rs1 : RegIdx) :
    immS (encodeS k imm rs2 rs1) = imm := by
  obtain ⟨-, -, -, -, hhi, hlo⟩ := encodeS_fields k imm rs2 rs1
  rw [immS, hhi, hlo, extract_append_extract imm 0 7 5]
  exact (eq_of_beq h).symm

theorem immB_encodeB {imm : Word} (h : fitsB imm = true) (k : Kind) (rs2 rs1 : RegIdx) :
    immB (encodeB k imm rs2 rs1) = imm := by
  obtain ⟨-, -, -, -, h12, h11, h10, h4⟩ := encodeB_fields k imm rs2 rs1
  rw [immB, h12, h11, h10, h4, extract_append_extract imm 11 1 1, extract_append_extract imm 5 2 6,
    extract_append_extract imm 1 8 4]
  exact (eq_of_beq h).symm

theorem immU_encodeU {imm : Word} (h : fitsU imm = true) (k : Kind) (rd : RegIdx) :
    immU (encodeU k imm rd) = imm := by
  rw [immU, (encodeU_fields k imm rd).2.2]
  exact (eq_of_beq h).symm

theorem immJ_encodeJ {imm : Word} (h : fitsJ imm = true) (k : Kind) (rd : RegIdx) :
    immJ (encodeJ k imm rd) = imm := by
  obtain ⟨-, -, h20, h19, h11, h10⟩ := encodeJ_fields k imm rd
  rw [immJ, h20, h19, h11, h10, extract_append_extract imm 12 1 8, extract_append_extract imm 11 9 1,
    extract_append_extract imm 1 10 10]
  exact (eq_of_beq h).symm

/-! ## The shift immediates: funct7 stands in bits 11..5 (R71) -/

theorem zext5_bits (v : BitVec 5) : (zext 5 v).extractLsb' 5 7 = 0 ∧ ((0x400 ||| zext 5 v : Word)).extractLsb' 5 7 = 0b0100000 := by
  revert v; decide

theorem zext5_fits12 (v : BitVec 5) : fits12 (zext 5 v) = true ∧ fits12 (0x400 ||| zext 5 v) = true := by
  revert v; decide

theorem fitsShift_funct7 {imm : Word} (h : fitsShift imm = true) : imm.extractLsb' 5 7 = 0 ∧ fits12 imm = true := by
  rw [eq_of_beq h]; exact ⟨(zext5_bits _).1, (zext5_fits12 _).1⟩

theorem fitsSrai_funct7 {imm : Word} (h : fitsSrai imm = true) :
    imm.extractLsb' 5 7 = 0b0100000 ∧ fits12 imm = true := by
  rw [eq_of_beq h]; exact ⟨(zext5_bits _).2, (zext5_fits12 _).2⟩

theorem encodeI_funct7 (k : Kind) (imm : Word) (rs1 rd : RegIdx) :
    (encodeI k imm rs1 rd).extractLsb' 25 7 = imm.extractLsb' 5 7 := by
  unfold encodeI
  simp (disch := omega) only [extract_append_high, Nat.reduceSub]
  apply BitVec.eq_of_getLsbD_eq
  intro i hi
  simp only [BitVec.getLsbD_extractLsb', hi, decide_true, Bool.true_and]
  rw [decide_eq_true (by omega), Bool.true_and]; congr 1; omega

end Sys2Proof
end

