-- ==== Sys2Proof/Laws/Step.lean ====
section
/-! SUPPORT. What an instruction and a step can do, said once: an instruction either takes the trap the table gives it
or retires, and a step of a running core is a fetch, a decode and an instruction (`40_core_cycle.md` R98, R99). -/

namespace Sys2Proof.Machine

/-! ## The bus and the clock after a store -/

theorem afterSubwordStore_mem (a w : Word) (s : State) :
    (afterSubwordStore a w s).mem = Memory.writeWord s.mem (a.toNat - a.toNat % 4) w := by
  simp [afterSubwordStore]

@[simp] theorem afterSubwordStore_cells (a w : Word) (s : State) : (afterSubwordStore a w s).cells = s.cells := by
  simp [afterSubwordStore]
@[simp] theorem afterSubwordStore_pc (a w : Word) (s : State) : (afterSubwordStore a w s).pc = s.pc := by
  simp [afterSubwordStore]
@[simp] theorem afterSubwordStore_run (a w : Word) (s : State) : (afterSubwordStore a w s).run = s.run := by
  simp [afterSubwordStore]
@[simp] theorem afterSubwordStore_output (a w : Word) (s : State) : (afterSubwordStore a w s).output = s.output := by
  simp [afterSubwordStore]
@[simp] theorem afterSubwordStore_hostState (a w : Word) (s : State) :
    (afterSubwordStore a w s).hostState = s.hostState := by
  simp [afterSubwordStore]
@[simp] theorem afterSubwordStore_params (a w : Word) (s : State) : (afterSubwordStore a w s).params = s.params := by
  simp [afterSubwordStore]

/-- The extra clock units of port transactions: none in the software realization (`70_reset_and_hazards.md` R264). -/
def portUnits (n : Nat) (s : State) : Nat :=
  match s.params.realization with
  | .software => 0
  | .hardware => n

theorem busRead_clock (a : Word) (s : State) : (busRead a s).clock = s.clock + portUnits 1 s := by
  unfold busRead portUnits; cases s.params.realization <;> simp

theorem busWrite_clock (a w : Word) (s : State) : (busWrite a w s).clock = s.clock + portUnits 1 s := by
  unfold busWrite portUnits; cases s.params.realization <;> simp

theorem afterSubwordStore_clock (a w : Word) (s : State) :
    (afterSubwordStore a w s).clock = s.clock + portUnits 2 s := by
  unfold afterSubwordStore
  rw [busWrite_clock]
  simp only [busRead_clock, portUnits, busRead_params]
  split <;> rfl

/-! ## Fetching -/

/-- R92: a good program counter is read through the port. -/
theorem fetch_ok {s : State} (h : WordAccessible s.pc s) : fetch s = .ok (fetchedWord s) (busRead s.pc s) :=
  wordRead_ok h

theorem step_trapped {s : State} {tr : Trap} (h : s.run = .trapped tr) : step s = .next (haltTick s) := by
  rw [step, coreStep, h]

theorem step_running {s : State} (h : s.run = .running) : step s = runningStep s := by
  rw [step, coreStep, h]

theorem step_misaligned {s : State} (hr : s.run = .running) (h : s.pc.toNat % 4 ≠ 0) :
    step s = .next (takeTrap (.accessFault .misaligned s.pc) s) := by
  rw [step_running hr, runningStep, fetch, memReadWord, wordRead_misaligned h, Access.conclude]

theorem step_outOfRange {s : State} (hr : s.run = .running) (h : s.pc.toNat % 4 = 0)
    (hm : s.params.memSize < s.pc.toNat + 4) : step s = .next (takeTrap (.accessFault .outOfRange s.pc) s) := by
  rw [step_running hr, runningStep, fetch, memReadWord, wordRead_outOfRange h hm, Access.conclude]

/-- R99: a word that decodes is dispatched. -/
theorem step_decoded {s : State} {i : Instr} (hr : s.run = .running) (h : WordAccessible s.pc s)
    (hd : decode (fetchedWord s) = .ok i) : step s = exec i (beginDispatch (busRead s.pc s)) := by
  rw [step_running hr, runningStep, fetch_ok h, Access.conclude, decodeAndDispatch, hd]

/-- R93: a word that does not decode traps. -/
theorem step_undecoded {s : State} {f : DecodeFailure} (hr : s.run = .running) (h : WordAccessible s.pc s)
    (hd : decode (fetchedWord s) = .error f) :
    step s = .next (takeTrap (.decodeFailure (fetchedWord s)) (busRead s.pc s)) := by
  rw [step_running hr, runningStep, fetch_ok h, Access.conclude, decodeAndDispatch, hd]

/-! ## What a retired instruction can have done -/

/-- Everything a retired instruction can do: the run state and the parameters stay, memory keeps its form, write-enable
stays low, and all but ECALL write at most one register, nothing of the handler's, and take the table's time. -/
structure Retired (i : Instr) (s t : State) : Prop where
  run : t.run = s.run
  params : t.params = s.params
  canonical : Memory.wf s.mem → Memory.wf t.mem
  within : Memory.within s.mem s.params.memSize → Memory.within t.mem s.params.memSize
  writeEnableLow : s.bus.we = false → t.bus.we = false
  pcEven : i.WellFormed → s.pc.toNat % 2 = 0 → t.pc.toNat % 2 = 0
  oneRegister : i ≠ .ecall → ∃ rd v, t.cells = s.cells ∨ t.cells = (writeReg rd v s).cells
  handler : i ≠ .ecall → t.output = s.output ∧ t.hostState = s.hostState

theorem even_add {a b : Word} (ha : a.toNat % 2 = 0) (hb : b.toNat % 2 = 0) : (a + b).toNat % 2 = 0 := by
  rw [BitVec.toNat_add]; omega

theorem even_add_four {a : Word} (ha : a.toNat % 2 = 0) : (a + 4).toNat % 2 = 0 := even_add ha (by decide)

/-- The immediates of branches and JAL are even (R68, R70). -/
theorem even_of_bit0 {v : Word} (h : v.getLsbD 0 = false) : v.toNat % 2 = 0 := by
  rw [BitVec.getLsbD, Nat.testBit_zero] at h; simpa using h

theorem fitsB_even {imm : Word} (h : fitsB imm = true) : imm.toNat % 2 = 0 := by
  apply even_of_bit0
  rw [eq_of_beq h, sext, BitVec.getLsbD_signExtend, if_pos (by omega), BitVec.getLsbD_append]
  simp

theorem fitsJ_even {imm : Word} (h : fitsJ imm = true) : imm.toNat % 2 = 0 := by
  apply even_of_bit0
  rw [eq_of_beq h, sext, BitVec.getLsbD_signExtend, if_pos (by omega), BitVec.getLsbD_append]
  simp

/-- R167: JALR's target is even. -/
theorem indirectTarget_even (rs1 : RegIdx) (imm : Word) (s : State) : (indirectTarget rs1 imm s).toNat % 2 = 0 := by
  apply even_of_bit0
  rw [indirectTarget, BitVec.getLsbD_and]
  simp

theorem retired_result (i : Instr) (rd : RegIdx) (v : Word) (s : State) : Retired i s (retire (writeReg rd v s)) where
  run := rfl
  params := rfl
  canonical := id
  within := id
  writeEnableLow := id
  pcEven := fun _ h => even_add_four h
  oneRegister := fun _ => ⟨rd, v, .inr rfl⟩
  handler := fun _ => ⟨rfl, rfl⟩

theorem retired_retire (i : Instr) (s : State) : Retired i s (retire s) where
  run := rfl
  params := rfl
  canonical := id
  within := id
  writeEnableLow := id
  pcEven := fun _ h => even_add_four h
  oneRegister := fun _ => ⟨0, 0, .inl rfl⟩
  handler := fun _ => ⟨rfl, rfl⟩

theorem retired_linkAndJump {i : Instr} {target : Word} {s : State}
    (h : i.WellFormed → s.pc.toNat % 2 = 0 → target.toNat % 2 = 0) (rd : RegIdx) (v : Word) :
    Retired i s (retireTo target (writeReg rd v s)) where
  run := rfl
  params := rfl
  canonical := id
  within := id
  writeEnableLow := id
  pcEven := h
  oneRegister := fun _ => ⟨rd, v, .inr rfl⟩
  handler := fun _ => ⟨rfl, rfl⟩

theorem retired_branch {i : Instr} {imm : Word} (h : i.WellFormed → imm.toNat % 2 = 0) (c : Bool) (s : State) :
    Retired i s (if c then retireTo (relativeTarget imm s) s else retire s) := by
  cases c
  · exact retired_retire i s
  · exact
      { run := rfl, params := rfl, canonical := id, within := id, writeEnableLow := id
        pcEven := fun hi hp => even_add hp (h hi)
        oneRegister := fun _ => ⟨0, 0, .inl rfl⟩
        handler := fun _ => ⟨rfl, rfl⟩ }

theorem retired_load (i : Instr) (a : Word) (rd : RegIdx) (v : Word) (s : State) :
    Retired i s (retire (writeReg rd v (busRead a s))) where
  run := by simp
  params := by simp
  canonical := fun h => by simpa using h
  within := fun h => by simpa using h
  writeEnableLow := fun h => busRead_we a s h
  pcEven := fun _ h => by simpa using even_add_four h
  oneRegister := fun _ => ⟨rd, v, .inr (by simp)⟩
  handler := fun _ => by simp

theorem retired_subwordStore (i : Instr) {a : Word} {s : State} (h : InMemory a s) (w : Word) :
    Retired i s (retire (afterSubwordStore a w s)) where
  run := by simp
  params := by simp
  canonical := fun hm => by
    simp only [retire_mem, afterSubwordStore_mem]; exact Memory.writeWord_wf hm _ _
  within := fun hm => by
    simp only [retire_mem, afterSubwordStore_mem]; exact Memory.writeWord_within hm h _
  writeEnableLow := fun hw => busWrite_we _ _ _ (busRead_we _ _ hw)
  pcEven := fun _ hp => by simpa using even_add_four hp
  oneRegister := fun _ => ⟨0, 0, .inl (by simp)⟩
  handler := fun _ => by simp

theorem retired_wordStore (i : Instr) {a : Word} {s : State} (h : WordAccessible a s) (w : Word) :
    Retired i s (retire (busWrite a w { s with mem := Memory.writeWord s.mem a.toNat w })) where
  run := by simp
  params := by simp
  canonical := fun hm => by simp only [retire_mem, busWrite_mem]; exact Memory.writeWord_wf hm _ _
  within := fun hm => by simp only [retire_mem, busWrite_mem]; exact Memory.writeWord_within hm h.2 _
  writeEnableLow := fun hw => busWrite_we a w _ hw
  pcEven := fun _ hp => by simpa using even_add_four hp
  oneRegister := fun _ => ⟨0, 0, .inl (by simp)⟩
  handler := fun _ => by simp

theorem retired_ecall (r : HandlerReply) (x : RegFile) (s : State) :
    Retired .ecall s (retire (acceptReply r (handlerTime x s))) where
  run := by simp
  params := by simp
  canonical := fun h => by simpa using h
  within := fun h => by simpa using h
  writeEnableLow := fun h => by simpa using h
  pcEven := fun _ h => by simpa using even_add_four h
  oneRegister := fun h => absurd rfl h
  handler := fun h => absurd rfl h

/-! ## An instruction takes its tabled trap, or retires -/

/-- What `exec` answers, said once. -/
def ExecOutcome (i : Instr) (s : State) : Prop :=
  match instrTrap i s with
  | some tr => exec i s = .next (takeTrap tr s)
  | none    => ∃ t, exec i s = .next t ∧ Retired i s t

theorem accessTrap_none {n : Nat} {ea : Word} {s : State} (hn : ea.toNat % n = 0) (h : InMemory ea s) :
    accessTrap n ea s = none := by
  rw [accessTrap, if_neg (fun hc => hc hn), if_neg (Nat.not_lt.mpr h)]

theorem accessTrap_misaligned {n : Nat} {ea : Word} {s : State} (hn : ea.toNat % n ≠ 0) :
    accessTrap n ea s = some (.accessFault .misaligned ea) := by
  rw [accessTrap, if_pos hn]

theorem accessTrap_outOfRange {n : Nat} {ea : Word} {s : State} (hn : ea.toNat % n = 0) (h : ¬ InMemory ea s) :
    accessTrap n ea s = some (.accessFault .outOfRange (wordAddr ea)) := by
  rw [accessTrap, if_neg (fun hc => hc hn), if_pos (Nat.lt_of_not_le h)]

/-- A byte load's outcome. -/
theorem loadByte_outcome (i : Instr) (rd : RegIdx) (ea : Word) (extend : Byte → Word) (s : State) :
    match accessTrap 1 ea s with
    | some tr => loadInto rd (memReadByte ea s) extend s = .next (takeTrap tr s)
    | none    => ∃ t, loadInto rd (memReadByte ea s) extend s = .next t ∧ Retired i s t := by
  by_cases h : InMemory ea s
  · rw [accessTrap_none (Nat.mod_one _) h]
    exact ⟨_, by rw [loadInto, memReadByte_ok h, Access.conclude, result], retired_load i _ rd _ s⟩
  · rw [accessTrap_outOfRange (Nat.mod_one _) h]
    simp only [loadInto, memReadByte_outOfRange h, Access.conclude]

/-- A halfword load's outcome. -/
theorem loadHalf_outcome (i : Instr) (rd : RegIdx) (ea : Word) (extend : Half → Word) (s : State) :
    match accessTrap 2 ea s with
    | some tr => loadInto rd (memReadHalf ea s) extend s = .next (takeTrap tr s)
    | none    => ∃ t, loadInto rd (memReadHalf ea s) extend s = .next t ∧ Retired i s t := by
  by_cases he : ea.toNat % 2 = 0
  · by_cases h : InMemory ea s
    · rw [accessTrap_none he h]
      exact ⟨_, by rw [loadInto, memReadHalf_ok he h, Access.conclude, result], retired_load i _ rd _ s⟩
    · rw [accessTrap_outOfRange he h]
      simp only [loadInto, memReadHalf_outOfRange he h, Access.conclude]
  · rw [accessTrap_misaligned he]
    simp only [loadInto, memReadHalf_misaligned he, Access.conclude]

theorem inMemory_of_aligned {a : Word} {s : State} (h : a.toNat % 4 = 0) :
    InMemory a s ↔ a.toNat + 4 ≤ s.params.memSize := by
  unfold InMemory; omega

/-- A word load's outcome. -/
theorem loadWord_outcome (i : Instr) (rd : RegIdx) (ea : Word) (extend : Word → Word) (s : State) :
    match accessTrap 4 ea s with
    | some tr => loadInto rd (memReadWord ea s) extend s = .next (takeTrap tr s)
    | none    => ∃ t, loadInto rd (memReadWord ea s) extend s = .next t ∧ Retired i s t := by
  by_cases he : ea.toNat % 4 = 0
  · by_cases h : InMemory ea s
    · rw [accessTrap_none he h]
      exact ⟨_, by rw [loadInto, memReadWord, wordRead_ok ⟨he, (inMemory_of_aligned he).mp h⟩, Access.conclude, result],
        retired_load i _ rd _ s⟩
    · rw [accessTrap_outOfRange he h, wordAddr_of_aligned he]
      simp only [loadInto, memReadWord, Access.conclude,
        wordRead_outOfRange he (Nat.lt_of_not_le (mt (inMemory_of_aligned he).mpr h))]
  · rw [accessTrap_misaligned he]
    simp only [loadInto, memReadWord, wordRead_misaligned he, Access.conclude]

/-- A byte store's outcome. -/
theorem storeByte_outcome (i : Instr) (ea v : Word) (s : State) :
    match accessTrap 1 ea s with
    | some tr => storeBy (memWriteByte ea v s) s = .next (takeTrap tr s)
    | none    => ∃ t, storeBy (memWriteByte ea v s) s = .next t ∧ Retired i s t := by
  by_cases h : InMemory ea s
  · rw [accessTrap_none (Nat.mod_one _) h]
    exact ⟨_, by rw [storeBy, memWriteByte_ok h, Access.conclude], retired_subwordStore i h _⟩
  · rw [accessTrap_outOfRange (Nat.mod_one _) h]
    simp only [storeBy, memWriteByte_outOfRange h, Access.conclude]

/-- A halfword store's outcome. -/
theorem storeHalf_outcome (i : Instr) (ea v : Word) (s : State) :
    match accessTrap 2 ea s with
    | some tr => storeBy (memWriteHalf ea v s) s = .next (takeTrap tr s)
    | none    => ∃ t, storeBy (memWriteHalf ea v s) s = .next t ∧ Retired i s t := by
  by_cases he : ea.toNat % 2 = 0
  · by_cases h : InMemory ea s
    · rw [accessTrap_none he h]
      exact ⟨_, by rw [storeBy, memWriteHalf_ok he h, Access.conclude], retired_subwordStore i h _⟩
    · rw [accessTrap_outOfRange he h]
      simp only [storeBy, memWriteHalf_outOfRange he h, Access.conclude]
  · rw [accessTrap_misaligned he]
    simp only [storeBy, memWriteHalf_misaligned he, Access.conclude]

/-- A word store's outcome. -/
theorem storeWord_outcome (i : Instr) (ea v : Word) (s : State) :
    match accessTrap 4 ea s with
    | some tr => storeBy (memWriteWord ea v s) s = .next (takeTrap tr s)
    | none    => ∃ t, storeBy (memWriteWord ea v s) s = .next t ∧ Retired i s t := by
  by_cases he : ea.toNat % 4 = 0
  · by_cases h : InMemory ea s
    · have hacc : WordAccessible ea s := ⟨he, (inMemory_of_aligned he).mp h⟩
      rw [accessTrap_none he h]
      exact ⟨_, by rw [storeBy, memWriteWord, wordWrite_ok hacc, Access.conclude], retired_wordStore i hacc v⟩
    · rw [accessTrap_outOfRange he h, wordAddr_of_aligned he]
      simp only [storeBy, memWriteWord, Access.conclude,
        wordWrite_outOfRange he (Nat.lt_of_not_le (mt (inMemory_of_aligned he).mpr h))]
  · rw [accessTrap_misaligned he]
    simp only [storeBy, memWriteWord, wordWrite_misaligned he, Access.conclude]

/-- Every instruction takes the trap R224 gives it, or retires. -/
theorem exec_outcome (i : Instr) (s : State) : ExecOutcome i s := by
  cases i with
  | lui rd imm => exact ⟨_, rfl, retired_result _ rd _ s⟩
  | auipc rd imm => exact ⟨_, rfl, retired_result _ rd _ s⟩
  | jal rd imm =>
    refine ⟨_, rfl, retired_linkAndJump ?_ rd _⟩
    exact fun hi hp => even_add hp (fitsJ_even (imm := imm) hi)
  | jalr rd rs1 imm => exact ⟨_, rfl, retired_linkAndJump (fun _ _ => indirectTarget_even rs1 imm s) rd _⟩
  | beq rs1 rs2 imm | bne rs1 rs2 imm | blt rs1 rs2 imm | bge rs1 rs2 imm | bltu rs1 rs2 imm | bgeu rs1 rs2 imm =>
    refine ⟨_, rfl, retired_branch ?_ _ s⟩
    exact fun hi => fitsB_even (imm := imm) hi
  | lb rd rs1 imm => exact loadByte_outcome _ rd _ _ s
  | lbu rd rs1 imm => exact loadByte_outcome _ rd _ _ s
  | lh rd rs1 imm => exact loadHalf_outcome _ rd _ _ s
  | lhu rd rs1 imm => exact loadHalf_outcome _ rd _ _ s
  | lw rd rs1 imm => exact loadWord_outcome _ rd _ _ s
  | sb rs1 rs2 imm => exact storeByte_outcome _ _ _ s
  | sh rs1 rs2 imm => exact storeHalf_outcome _ _ _ s
  | sw rs1 rs2 imm => exact storeWord_outcome _ _ _ s
  | addi rd rs1 imm | slti rd rs1 imm | sltiu rd rs1 imm | xori rd rs1 imm | ori rd rs1 imm | andi rd rs1 imm
  | slli rd rs1 imm | srli rd rs1 imm | srai rd rs1 imm => exact ⟨_, rfl, retired_result _ rd _ s⟩
  | add rd rs1 rs2 | sub rd rs1 rs2 | sll rd rs1 rs2 | slt rd rs1 rs2 | sltu rd rs1 rs2 | xor rd rs1 rs2
  | srl rd rs1 rs2 | sra rd rs1 rs2 | or rd rs1 rs2 | and rd rs1 rs2 => exact ⟨_, rfl, retired_result _ rd _ s⟩
  | fence => exact ⟨_, rfl, retired_retire _ s⟩
  | ecall => exact ⟨_, rfl, retired_ecall _ _ s⟩
  | ebreak => exact rfl

end Sys2Proof.Machine
end

