-- ==== Sys2Proof/Laws/Cycle.lean ====
section
/-! SUPPORT. Every way a step of a running core can end, said once, and the laws of starting a core and of the bus
transactions that the statements of `Sys2Proof/Safety.lean` speak of. -/

namespace Sys2Proof.Machine

/-! ## Starting (`70_reset_and_hazards.md`) -/

/-- `State.reset` is the boot of `resetSetup`. -/
theorem boot_resetSetup : State.boot resetSetup = some State.reset := by decide

/-- What a core that starts was constructed from. -/
theorem boot_some {b : BootSetup} {s : State} (h : State.boot b = some s) :
    b.params.valid ∧ b.image.length ≤ b.params.memSize ∧
      s = ⟨resetCells b.params.memSize b.xinit, resetPc, .running,
        Memory.initial b.params.memSize b.memInit b.image, resetBus b.busAddr b.busWdata, 0, [], b.hostState, b.params⟩ := by
  unfold State.boot at h
  split at h
  · rename_i hc
    cases h
    exact ⟨hc.1, hc.2, rfl⟩
  · cases h

/-! ## Steps in a row -/

theorem run_next {M : Host.Core} {s t : M.State} (h : M.step s = .next t) (n : Nat) : M.run (n + 1) s = M.run n t := by
  simp only [Host.Core.run, h]

/-! ## Bus transactions (`20_memory.md` R46, R47) -/

theorem busRead_afterRead (a : Word) (s : State) : AfterRead a s (busRead a s) := by
  unfold AfterRead busRead
  cases s.params.realization <;> simp

/-- `AfterRead` depends on the bus, the clock and the word of the address alone. -/
theorem AfterRead.congr {a b : Word} {s t u : State} (h : AfterRead b s t) (hb : u.bus = t.bus) (hc : u.clock = t.clock)
    (ha : b.extractLsb' 2 30 = a.extractLsb' 2 30) : AfterRead a s u := by
  unfold AfterRead at *
  rw [hb, hc, ← ha]
  exact h

theorem afterSubwordStore_afterWrite (a w : Word) (s : State) : AfterWrite 1 a w s (afterSubwordStore a w s) := by
  have hb := wordAddr_busAddr a
  unfold AfterWrite afterSubwordStore busWrite busRead
  cases hr : s.params.realization <;> simp [hr, hb]

theorem busWrite_afterWrite (a w : Word) (s : State) : AfterWrite 0 a w s (busWrite a w s) := by
  unfold AfterWrite busWrite
  cases s.params.realization <;> simp

/-- The containing word after a sub-word store is the word it wrote back. -/
theorem containingWord_afterSubwordStore {a w : Word} {s : State} (hm : Memory.wf s.mem) :
    containingWord a (afterSubwordStore a w s) = w := by
  rw [containingWord, afterSubwordStore_mem, Memory.readWord_writeWord hm]

/-! ## The four ways a step of a running core can end -/

/-- The state an instruction is dispatched in (R92 to R95). -/
def dispatchState (s : State) : State := beginDispatch (busRead s.pc s)

theorem accessTrap_fetch {s : State} (h : WordAccessible s.pc s) : accessTrap 4 s.pc s = none :=
  accessTrap_none h.1 ((inMemory_of_aligned h.1).mpr h.2)

/-- Which trap an instruction takes does not depend on the fetch before it. -/
theorem instrTrap_dispatchState (i : Instr) (s : State) : instrTrap i (dispatchState s) = instrTrap i s := by
  cases i <;> simp [instrTrap, accessTrap, dispatchState]

/-- R99: a running core's step retires the decoded instruction, or takes the trap the table gives in the state before
the step, after the fetch or in the dispatch state. -/
theorem step_cases {s : State} (hr : s.run = .running) :
    (∃ i t, step s = .next t ∧ stepTrap s = none ∧ WordAccessible s.pc s ∧ decode (fetchedWord s) = .ok i ∧
      instrTrap i s = none ∧ exec i (dispatchState s) = .next t ∧ Retired i (dispatchState s) t) ∨
    (∃ tr b, step s = .next (takeTrap tr b) ∧ stepTrap s = some tr ∧
      (b = s ∨ b = busRead s.pc s ∨ b = dispatchState s)) := by
  by_cases h1 : s.pc.toNat % 4 = 0
  · by_cases h2 : s.pc.toNat + 4 ≤ s.params.memSize
    · have hw : WordAccessible s.pc s := ⟨h1, h2⟩
      cases hd : decode (fetchedWord s) with
      | error f =>
        exact .inr ⟨_, _, step_undecoded hr hw hd, by rw [stepTrap, accessTrap_fetch hw, hd], .inr (.inl rfl)⟩
      | ok i =>
        have ho := exec_outcome i (dispatchState s)
        unfold ExecOutcome at ho
        rw [instrTrap_dispatchState] at ho
        have hst : stepTrap s = instrTrap i s := by rw [stepTrap, accessTrap_fetch hw, hd]
        cases ht : instrTrap i s with
        | some tr =>
          rw [ht] at ho
          exact .inr ⟨tr, _, (step_decoded hr hw hd).trans ho, hst.trans ht, .inr (.inr rfl)⟩
        | none =>
          rw [ht] at ho
          obtain ⟨t, he, hR⟩ := ho
          exact .inl ⟨i, t, (step_decoded hr hw hd).trans he, hst.trans ht, hw, rfl, ht, he, hR⟩
    · exact .inr ⟨_, s, step_outOfRange hr h1 (by omega), by
        rw [stepTrap, accessTrap_outOfRange h1 (mt (inMemory_of_aligned h1).mp h2), wordAddr_of_aligned h1], .inl rfl⟩
  · exact .inr ⟨_, s, step_misaligned hr h1, by rw [stepTrap, accessTrap_misaligned h1], .inl rfl⟩

end Sys2Proof.Machine
end

