-- ==== Sys2Proof/Laws/Fields.lean ====
section
/-! SUPPORT. Fields of sign-extended values and words given by their fields (`30_encoding.md` R65 to R71): what the
decoder delivers is always an immediate its format can hold. -/

namespace Sys2Proof

theorem getLsbD_sext {n : Nat} (v : BitVec n) (i : Nat) (hi : i < n) (hn : n ≤ 32) :
    (sext n v).getLsbD i = v.getLsbD i := by
  unfold sext
  rw [BitVec.getLsbD_signExtend, if_pos hi, decide_eq_true (by omega), Bool.true_and]

theorem extract_sext {n : Nat} (v : BitVec n) (lo len : Nat) (h : lo + len ≤ n) (hn : n ≤ 32) :
    (sext n v).extractLsb' lo len = v.extractLsb' lo len := by
  apply BitVec.eq_of_getLsbD_eq
  intro i hi
  rw [BitVec.getLsbD_extractLsb', BitVec.getLsbD_extractLsb', getLsbD_sext v _ (by omega) hn]

theorem extract_extract (w : Word) (a b lo len : Nat) (h : lo + len ≤ b) :
    (w.extractLsb' a b).extractLsb' lo len = w.extractLsb' (a + lo) len := by
  apply BitVec.eq_of_getLsbD_eq
  intro i hi
  simp [hi, show lo + i < b by omega, Nat.add_assoc]

theorem fits12_sext (v : BitVec 12) : fits12 (sext 12 v) = true := by
  unfold fits12
  rw [beq_iff_eq, extract_sext v 0 12 (by omega) (by omega), extract_self]

theorem fitsB_sext (v : BitVec 12) : fitsB (sext 13 (v ++ 0#1)) = true := by
  unfold fitsB
  rw [beq_iff_eq, extract_sext _ 1 12 (by omega) (by omega), extract_append_high _ _ _ _ (by omega), extract_self]

theorem fitsJ_sext (v : BitVec 20) : fitsJ (sext 21 (v ++ 0#1)) = true := by
  unfold fitsJ
  rw [beq_iff_eq, extract_sext _ 1 20 (by omega) (by omega), extract_append_high _ _ _ _ (by omega), extract_self]

theorem fitsU_append (v : BitVec 20) : fitsU (v ++ 0#12) = true := by
  unfold fitsU
  rw [beq_iff_eq, extract_append_high _ _ _ _ (by omega), extract_self]

/-- Two words with the same fields, over fields that cover every bit, are the same word. -/
theorem eq_of_fields {w v : Word} (fields : List (Nat × Nat)) (hc : ∀ i < 32, ∃ p ∈ fields, p.1 ≤ i ∧ i < p.1 + p.2)
    (h : ∀ p ∈ fields, w.extractLsb' p.1 p.2 = v.extractLsb' p.1 p.2) : w = v := by
  apply BitVec.eq_of_getLsbD_eq
  intro i hi
  obtain ⟨p, hp, h1, h2⟩ := hc i hi
  exact (extract_eq_iff w v p.1 p.2).mp (h p hp) i h1 h2

/-- A word with a row's fixed fields decodes to that row's record. -/
theorem decode_of_fields (k : Kind) (w : Word)
    (h : match k.row.format with
      | .iFixed => w = k.row.pattern
      | _ => w.extractLsb' 0 7 = k.row.opcode ∧ (∀ f ∈ k.row.funct3, w.extractLsb' 12 3 = f) ∧
          (∀ f ∈ k.row.funct7, w.extractLsb' 25 7 = f)) : decode w = .ok (recordOf k w).toInstr :=
  decode_of_selects ((selects_iff k w).mpr h)

end Sys2Proof
end

