-- ==== Sys2Proof/Laws/PerInstr.lean ====
section
/-! SUPPORT. The family SelectsOwnRow: the word of a well-formed instruction is selected by the row of its own kind in
the opcode map (`30_encoding.md` R72), one lemma a constructor. -/

namespace Sys2Proof.Laws.SelectsOwnRow

/-- The instruction's word is selected by its own row. -/
def Statement (i : Instr) : Prop := i.WellFormed → i.kind.row.selects (encode i) = true

theorem lui (rd : RegIdx) (imm : Word) : Statement (.lui rd imm) := fun _ => by
  obtain ⟨ho, -, -⟩ := encodeU_fields .LUI imm rd
  exact (selects_iff .LUI _).mpr ⟨ho, by rintro _ ⟨⟩, by rintro _ ⟨⟩⟩

theorem auipc (rd : RegIdx) (imm : Word) : Statement (.auipc rd imm) := fun _ => by
  obtain ⟨ho, -, -⟩ := encodeU_fields .AUIPC imm rd
  exact (selects_iff .AUIPC _).mpr ⟨ho, by rintro _ ⟨⟩, by rintro _ ⟨⟩⟩

theorem jal (rd : RegIdx) (imm : Word) : Statement (.jal rd imm) := fun _ => by
  obtain ⟨ho, -, -, -, -, -⟩ := encodeJ_fields .JAL imm rd
  exact (selects_iff .JAL _).mpr ⟨ho, by rintro _ ⟨⟩, by rintro _ ⟨⟩⟩

theorem jalr (rd rs1 : RegIdx) (imm : Word) : Statement (.jalr rd rs1 imm) := fun _ => by
  obtain ⟨ho, h3, -, -, -⟩ := encodeI_fields .JALR imm rs1 rd
  exact (selects_iff .JALR _).mpr ⟨ho, by rintro _ ⟨⟩; exact h3, by rintro _ ⟨⟩⟩

theorem beq (rs1 rs2 : RegIdx) (imm : Word) : Statement (.beq rs1 rs2 imm) := fun _ => by
  obtain ⟨ho, h3, -, -, -, -, -, -⟩ := encodeB_fields .BEQ imm rs2 rs1
  exact (selects_iff .BEQ _).mpr ⟨ho, by rintro _ ⟨⟩; exact h3, by rintro _ ⟨⟩⟩

theorem bne (rs1 rs2 : RegIdx) (imm : Word) : Statement (.bne rs1 rs2 imm) := fun _ => by
  obtain ⟨ho, h3, -, -, -, -, -, -⟩ := encodeB_fields .BNE imm rs2 rs1
  exact (selects_iff .BNE _).mpr ⟨ho, by rintro _ ⟨⟩; exact h3, by rintro _ ⟨⟩⟩

theorem blt (rs1 rs2 : RegIdx) (imm : Word) : Statement (.blt rs1 rs2 imm) := fun _ => by
  obtain ⟨ho, h3, -, -, -, -, -, -⟩ := encodeB_fields .BLT imm rs2 rs1
  exact (selects_iff .BLT _).mpr ⟨ho, by rintro _ ⟨⟩; exact h3, by rintro _ ⟨⟩⟩

theorem bge (rs1 rs2 : RegIdx) (imm : Word) : Statement (.bge rs1 rs2 imm) := fun _ => by
  obtain ⟨ho, h3, -, -, -, -, -, -⟩ := encodeB_fields .BGE imm rs2 rs1
  exact (selects_iff .BGE _).mpr ⟨ho, by rintro _ ⟨⟩; exact h3, by rintro _ ⟨⟩⟩

theorem bltu (rs1 rs2 : RegIdx) (imm : Word) : Statement (.bltu rs1 rs2 imm) := fun _ => by
  obtain ⟨ho, h3, -, -, -, -, -, -⟩ := encodeB_fields .BLTU imm rs2 rs1
  exact (selects_iff .BLTU _).mpr ⟨ho, by rintro _ ⟨⟩; exact h3, by rintro _ ⟨⟩⟩

theorem bgeu (rs1 rs2 : RegIdx) (imm : Word) : Statement (.bgeu rs1 rs2 imm) := fun _ => by
  obtain ⟨ho, h3, -, -, -, -, -, -⟩ := encodeB_fields .BGEU imm rs2 rs1
  exact (selects_iff .BGEU _).mpr ⟨ho, by rintro _ ⟨⟩; exact h3, by rintro _ ⟨⟩⟩

theorem lb (rd rs1 : RegIdx) (imm : Word) : Statement (.lb rd rs1 imm) := fun _ => by
  obtain ⟨ho, h3, -, -, -⟩ := encodeI_fields .LB imm rs1 rd
  exact (selects_iff .LB _).mpr ⟨ho, by rintro _ ⟨⟩; exact h3, by rintro _ ⟨⟩⟩

theorem lh (rd rs1 : RegIdx) (imm : Word) : Statement (.lh rd rs1 imm) := fun _ => by
  obtain ⟨ho, h3, -, -, -⟩ := encodeI_fields .LH imm rs1 rd
  exact (selects_iff .LH _).mpr ⟨ho, by rintro _ ⟨⟩; exact h3, by rintro _ ⟨⟩⟩

theorem lw (rd rs1 : RegIdx) (imm : Word) : Statement (.lw rd rs1 imm) := fun _ => by
  obtain ⟨ho, h3, -, -, -⟩ := encodeI_fields .LW imm rs1 rd
  exact (selects_iff .LW _).mpr ⟨ho, by rintro _ ⟨⟩; exact h3, by rintro _ ⟨⟩⟩

theorem lbu (rd rs1 : RegIdx) (imm : Word) : Statement (.lbu rd rs1 imm) := fun _ => by
  obtain ⟨ho, h3, -, -, -⟩ := encodeI_fields .LBU imm rs1 rd
  exact (selects_iff .LBU _).mpr ⟨ho, by rintro _ ⟨⟩; exact h3, by rintro _ ⟨⟩⟩

theorem lhu (rd rs1 : RegIdx) (imm : Word) : Statement (.lhu rd rs1 imm) := fun _ => by
  obtain ⟨ho, h3, -, -, -⟩ := encodeI_fields .LHU imm rs1 rd
  exact (selects_iff .LHU _).mpr ⟨ho, by rintro _ ⟨⟩; exact h3, by rintro _ ⟨⟩⟩

theorem sb (rs1 rs2 : RegIdx) (imm : Word) : Statement (.sb rs1 rs2 imm) := fun _ => by
  obtain ⟨ho, h3, -, -, -, -⟩ := encodeS_fields .SB imm rs2 rs1
  exact (selects_iff .SB _).mpr ⟨ho, by rintro _ ⟨⟩; exact h3, by rintro _ ⟨⟩⟩

theorem sh (rs1 rs2 : RegIdx) (imm : Word) : Statement (.sh rs1 rs2 imm) := fun _ => by
  obtain ⟨ho, h3, -, -, -, -⟩ := encodeS_fields .SH imm rs2 rs1
  exact (selects_iff .SH _).mpr ⟨ho, by rintro _ ⟨⟩; exact h3, by rintro _ ⟨⟩⟩

theorem sw (rs1 rs2 : RegIdx) (imm : Word) : Statement (.sw rs1 rs2 imm) := fun _ => by
  obtain ⟨ho, h3, -, -, -, -⟩ := encodeS_fields .SW imm rs2 rs1
  exact (selects_iff .SW _).mpr ⟨ho, by rintro _ ⟨⟩; exact h3, by rintro _ ⟨⟩⟩

theorem addi (rd rs1 : RegIdx) (imm : Word) : Statement (.addi rd rs1 imm) := fun _ => by
  obtain ⟨ho, h3, -, -, -⟩ := encodeI_fields .ADDI imm rs1 rd
  exact (selects_iff .ADDI _).mpr ⟨ho, by rintro _ ⟨⟩; exact h3, by rintro _ ⟨⟩⟩

theorem slti (rd rs1 : RegIdx) (imm : Word) : Statement (.slti rd rs1 imm) := fun _ => by
  obtain ⟨ho, h3, -, -, -⟩ := encodeI_fields .SLTI imm rs1 rd
  exact (selects_iff .SLTI _).mpr ⟨ho, by rintro _ ⟨⟩; exact h3, by rintro _ ⟨⟩⟩

theorem sltiu (rd rs1 : RegIdx) (imm : Word) : Statement (.sltiu rd rs1 imm) := fun _ => by
  obtain ⟨ho, h3, -, -, -⟩ := encodeI_fields .SLTIU imm rs1 rd
  exact (selects_iff .SLTIU _).mpr ⟨ho, by rintro _ ⟨⟩; exact h3, by rintro _ ⟨⟩⟩

theorem xori (rd rs1 : RegIdx) (imm : Word) : Statement (.xori rd rs1 imm) := fun _ => by
  obtain ⟨ho, h3, -, -, -⟩ := encodeI_fields .XORI imm rs1 rd
  exact (selects_iff .XORI _).mpr ⟨ho, by rintro _ ⟨⟩; exact h3, by rintro _ ⟨⟩⟩

theorem ori (rd rs1 : RegIdx) (imm : Word) : Statement (.ori rd rs1 imm) := fun _ => by
  obtain ⟨ho, h3, -, -, -⟩ := encodeI_fields .ORI imm rs1 rd
  exact (selects_iff .ORI _).mpr ⟨ho, by rintro _ ⟨⟩; exact h3, by rintro _ ⟨⟩⟩

theorem andi (rd rs1 : RegIdx) (imm : Word) : Statement (.andi rd rs1 imm) := fun _ => by
  obtain ⟨ho, h3, -, -, -⟩ := encodeI_fields .ANDI imm rs1 rd
  exact (selects_iff .ANDI _).mpr ⟨ho, by rintro _ ⟨⟩; exact h3, by rintro _ ⟨⟩⟩

theorem slli (rd rs1 : RegIdx) (imm : Word) : Statement (.slli rd rs1 imm) := fun hwf => by
  obtain ⟨ho, h3, -, -, -⟩ := encodeI_fields .SLLI imm rs1 rd
  have h7 := (encodeI_funct7 .SLLI imm rs1 rd).trans (fitsShift_funct7 hwf).1
  exact (selects_iff .SLLI _).mpr ⟨ho, by rintro _ ⟨⟩; exact h3, by rintro _ ⟨⟩; exact h7⟩

theorem srli (rd rs1 : RegIdx) (imm : Word) : Statement (.srli rd rs1 imm) := fun hwf => by
  obtain ⟨ho, h3, -, -, -⟩ := encodeI_fields .SRLI imm rs1 rd
  have h7 := (encodeI_funct7 .SRLI imm rs1 rd).trans (fitsShift_funct7 hwf).1
  exact (selects_iff .SRLI _).mpr ⟨ho, by rintro _ ⟨⟩; exact h3, by rintro _ ⟨⟩; exact h7⟩

theorem srai (rd rs1 : RegIdx) (imm : Word) : Statement (.srai rd rs1 imm) := fun hwf => by
  obtain ⟨ho, h3, -, -, -⟩ := encodeI_fields .SRAI imm rs1 rd
  have h7 := (encodeI_funct7 .SRAI imm rs1 rd).trans (fitsSrai_funct7 hwf).1
  exact (selects_iff .SRAI _).mpr ⟨ho, by rintro _ ⟨⟩; exact h3, by rintro _ ⟨⟩; exact h7⟩

theorem add (rd rs1 rs2 : RegIdx) : Statement (.add rd rs1 rs2) := fun _ => by
  obtain ⟨ho, h3, h7, -, -, -⟩ := encodeR_fields .ADD rs2 rs1 rd
  exact (selects_iff .ADD _).mpr ⟨ho, by rintro _ ⟨⟩; exact h3, by rintro _ ⟨⟩; exact h7⟩

theorem sub (rd rs1 rs2 : RegIdx) : Statement (.sub rd rs1 rs2) := fun _ => by
  obtain ⟨ho, h3, h7, -, -, -⟩ := encodeR_fields .SUB rs2 rs1 rd
  exact (selects_iff .SUB _).mpr ⟨ho, by rintro _ ⟨⟩; exact h3, by rintro _ ⟨⟩; exact h7⟩

theorem sll (rd rs1 rs2 : RegIdx) : Statement (.sll rd rs1 rs2) := fun _ => by
  obtain ⟨ho, h3, h7, -, -, -⟩ := encodeR_fields .SLL rs2 rs1 rd
  exact (selects_iff .SLL _).mpr ⟨ho, by rintro _ ⟨⟩; exact h3, by rintro _ ⟨⟩; exact h7⟩

theorem slt (rd rs1 rs2 : RegIdx) : Statement (.slt rd rs1 rs2) := fun _ => by
  obtain ⟨ho, h3, h7, -, -, -⟩ := encodeR_fields .SLT rs2 rs1 rd
  exact (selects_iff .SLT _).mpr ⟨ho, by rintro _ ⟨⟩; exact h3, by rintro _ ⟨⟩; exact h7⟩

theorem sltu (rd rs1 rs2 : RegIdx) : Statement (.sltu rd rs1 rs2) := fun _ => by
  obtain ⟨ho, h3, h7, -, -, -⟩ := encodeR_fields .SLTU rs2 rs1 rd
  exact (selects_iff .SLTU _).mpr ⟨ho, by rintro _ ⟨⟩; exact h3, by rintro _ ⟨⟩; exact h7⟩

theorem xor (rd rs1 rs2 : RegIdx) : Statement (.xor rd rs1 rs2) := fun _ => by
  obtain ⟨ho, h3, h7, -, -, -⟩ := encodeR_fields .XOR rs2 rs1 rd
  exact (selects_iff .XOR _).mpr ⟨ho, by rintro _ ⟨⟩; exact h3, by rintro _ ⟨⟩; exact h7⟩

theorem srl (rd rs1 rs2 : RegIdx) : Statement (.srl rd rs1 rs2) := fun _ => by
  obtain ⟨ho, h3, h7, -, -, -⟩ := encodeR_fields .SRL rs2 rs1 rd
  exact (selects_iff .SRL _).mpr ⟨ho, by rintro _ ⟨⟩; exact h3, by rintro _ ⟨⟩; exact h7⟩

theorem sra (rd rs1 rs2 : RegIdx) : Statement (.sra rd rs1 rs2) := fun _ => by
  obtain ⟨ho, h3, h7, -, -, -⟩ := encodeR_fields .SRA rs2 rs1 rd
  exact (selects_iff .SRA _).mpr ⟨ho, by rintro _ ⟨⟩; exact h3, by rintro _ ⟨⟩; exact h7⟩

theorem or (rd rs1 rs2 : RegIdx) : Statement (.or rd rs1 rs2) := fun _ => by
  obtain ⟨ho, h3, h7, -, -, -⟩ := encodeR_fields .OR rs2 rs1 rd
  exact (selects_iff .OR _).mpr ⟨ho, by rintro _ ⟨⟩; exact h3, by rintro _ ⟨⟩; exact h7⟩

theorem and (rd rs1 rs2 : RegIdx) : Statement (.and rd rs1 rs2) := fun _ => by
  obtain ⟨ho, h3, h7, -, -, -⟩ := encodeR_fields .AND rs2 rs1 rd
  exact (selects_iff .AND _).mpr ⟨ho, by rintro _ ⟨⟩; exact h3, by rintro _ ⟨⟩; exact h7⟩

theorem fence : Statement (.fence) := fun _ => by decide

theorem ecall : Statement (.ecall) := fun _ => by decide

theorem ebreak : Statement (.ebreak) := fun _ => by decide

end Sys2Proof.Laws.SelectsOwnRow
end

