-- ==== Sys2Proof/Tests/Slice0.lean ====
section
/-! SUPPORT. The model's own tests: WellFormed refuses each kind of ill-formed term; a word for every constructor,
from the spec's examples and vectors (`95_test_vectors.md` V-DEC, V-ILL and each rule's *Example*), decodes to it; one step
each on a small state, expected results from the same places; and for every statement of
`Sys2Proof/Certificates/Slice0/Obligations.lean` with hypotheses a state and operands that meet them. -/

namespace Sys2Proof.Tests

open Sys2Proof.Machine

/-! ## WellFormed refuses -/

theorem test_wellFormed_refuses_I : ¬ (Instr.addi 1 0 0x00000800).WellFormed := by decide
theorem test_wellFormed_refuses_S : ¬ (Instr.sw 1 2 0xFFFFF7FF).WellFormed := by decide
theorem test_wellFormed_refuses_B_odd : ¬ (Instr.beq 1 2 0x00000003).WellFormed := by decide
theorem test_wellFormed_refuses_B_far : ¬ (Instr.bne 1 2 0x00001000).WellFormed := by decide
theorem test_wellFormed_refuses_U : ¬ (Instr.lui 1 0x00000FFF).WellFormed := by decide
theorem test_wellFormed_refuses_J_odd : ¬ (Instr.jal 1 0x00000001).WellFormed := by decide
theorem test_wellFormed_refuses_J_far : ¬ (Instr.jal 1 0x00100000).WellFormed := by decide
theorem test_wellFormed_refuses_shift : ¬ (Instr.slli 1 1 32).WellFormed := by decide
theorem test_wellFormed_refuses_srai : ¬ (Instr.srai 1 1 31).WellFormed := by decide
theorem test_wellFormed_accepts_bounds : (Instr.addi 1 0 0xFFFFF800).WellFormed ∧ (Instr.beq 1 2 0xFFFFF000).WellFormed ∧
    (Instr.jal 1 0x000FFFFE).WellFormed ∧ (Instr.lui 1 0xFFFFF000).WellFormed ∧ (Instr.srai 1 1 0x41F).WellFormed := by decide

/-! ## Decoding: every constructor by a word of the spec -/

/-- The word decodes to the instruction, and the instruction is written as the word. -/
def bothWays (w : Word) (i : Instr) : Bool :=
  (match decode w with | .ok j => j == i | .error _ => false) && encode i == w

theorem test_decode_lui : bothWays 0xFFFFFFB7 (.lui 31 0xFFFFF000) = true := by decide
theorem test_decode_auipc : bothWays 0x80000097 (.auipc 1 0x80000000) = true := by decide
theorem test_decode_jal : bothWays 0x7FFFF0EF (.jal 1 0x000FFFFE) = true := by decide
theorem test_decode_jal_negative : bothWays 0x8000006F (.jal 0 0xFFF00000) = true := by decide
theorem test_decode_jalr : bothWays 0xFFC280E7 (.jalr 1 5 0xFFFFFFFC) = true := by decide
theorem test_decode_beq : bothWays 0x7E208FE3 (.beq 1 2 0x00000FFE) = true := by decide
theorem test_decode_bne : bothWays 0x80209063 (.bne 1 2 0xFFFFF000) = true := by decide
theorem test_decode_blt : bothWays 0xFE504CE3 (.blt 0 5 0xFFFFFFF8) = true := by decide
theorem test_decode_bge : bothWays 0x0041D163 (.bge 3 4 2) = true := by decide
theorem test_decode_bltu : bothWays 0x0062E463 (.bltu 5 6 8) = true := by decide
theorem test_decode_bgeu : bothWays 0xFE62FEE3 (.bgeu 5 6 0xFFFFFFFC) = true := by decide
theorem test_decode_lb : bothWays 0x00128303 (.lb 6 5 1) = true := by decide
theorem test_decode_lh : bothWays 0x00229303 (.lh 6 5 2) = true := by decide
theorem test_decode_lw : bothWays 0x7FF2A303 (.lw 6 5 0x7FF) = true := by decide
theorem test_decode_lbu : bothWays 0x0032C303 (.lbu 6 5 3) = true := by decide
theorem test_decode_lhu : bothWays 0xFFC2D303 (.lhu 6 5 0xFFFFFFFC) = true := by decide
theorem test_decode_sb : bothWays 0x7E320FA3 (.sb 4 3 0x7FF) = true := by decide
theorem test_decode_sh : bothWays 0xFE629F23 (.sh 5 6 0xFFFFFFFE) = true := by decide
theorem test_decode_sw : bothWays 0x81F0A023 (.sw 1 31 0xFFFFF800) = true := by decide
theorem test_decode_addi : bothWays 0x80000093 (.addi 1 0 0xFFFFF800) = true := by decide
theorem test_decode_slti : bothWays 0x8002A313 (.slti 6 5 0xFFFFF800) = true := by decide
theorem test_decode_sltiu : bothWays 0xFFF2B313 (.sltiu 6 5 0xFFFFFFFF) = true := by decide
theorem test_decode_xori : bothWays 0x7FF2C313 (.xori 6 5 0x7FF) = true := by decide
theorem test_decode_ori : bothWays 0x0F02E313 (.ori 6 5 0xF0) = true := by decide
theorem test_decode_andi : bothWays 0xFF02F313 (.andi 6 5 0xFFFFFFF0) = true := by decide
theorem test_decode_slli : bothWays 0x01F09093 (.slli 1 1 31) = true := by decide
theorem test_decode_srli : bothWays 0x0042D313 (.srli 6 5 4) = true := by decide
theorem test_decode_srai : bothWays 0x41F2D313 (.srai 6 5 0x41F) = true := by decide
theorem test_decode_add : bothWays 0x006283B3 (.add 7 5 6) = true := by decide
theorem test_decode_sub : bothWays 0x406283B3 (.sub 7 5 6) = true := by decide
theorem test_decode_sll : bothWays 0x006293B3 (.sll 7 5 6) = true := by decide
theorem test_decode_slt : bothWays 0x0062A3B3 (.slt 7 5 6) = true := by decide
theorem test_decode_sltu : bothWays 0x0062B3B3 (.sltu 7 5 6) = true := by decide
theorem test_decode_xor : bothWays 0x0062C3B3 (.xor 7 5 6) = true := by decide
theorem test_decode_srl : bothWays 0x0062D3B3 (.srl 7 5 6) = true := by decide
theorem test_decode_sra : bothWays 0x4062D3B3 (.sra 7 5 6) = true := by decide
theorem test_decode_or : bothWays 0x0062E3B3 (.or 7 5 6) = true := by decide
theorem test_decode_and : bothWays 0x0062F3B3 (.and 7 5 6) = true := by decide
theorem test_decode_fence : bothWays 0x0FF0000F (.fence) = true := by decide
theorem test_decode_ecall : bothWays 0x00000073 (.ecall) = true := by decide
theorem test_decode_ebreak : bothWays 0x00100073 (.ebreak) = true := by decide

/-- The word is rejected by name. -/
def rejected (w : Word) : Bool := match decode w with | .ok _ => false | .error f => f == .unrecognizedEncoding w

/-- V-ILL, rejected. -/
theorem test_decode_rejects : ([0x00000000, 0xFFFFFFFF, 0x00000001, 0x00000002, 0x0000007F, 0x0000002F,
    0x00000053, 0x00000007, 0x00000027, 0x0000001B, 0x0000003B, 0x0000100F,
    0x30200073, 0x10500073, 0xC0001073] : List Word).all rejected = true := by decide
theorem test_decode_rejects_more : ([0x00200073, 0x00008073, 0x00000873, 0x000100F3, 0x02B50533, 0x40001033,
    0x40001013, 0x02001013, 0x20005013, 0x00001067, 0x00003003, 0x00006003,
    0x00007003, 0x00003023, 0x00002063, 0x00003063] : List Word).all rejected = true := by decide
/-- V-ILL, accepted. -/
theorem test_decode_accepts_fence_fields : ([0x0000000F, 0x8330000F, 0x0100000F, 0xFFFF8F8F] : List Word).all
    (fun w => match decode w with | .ok j => j == .fence | .error _ => false) = true := by decide
theorem test_decode_bit30_of_addi : decode 0x40000013 = .ok (.addi 0 0 0x400) := by decide
theorem test_decodeTableWord : decodeTableWord 32 0x406283B3 = some (.sub 7 5 6) ∧ decodeTableWord 32 0 = none := by decide

/-! ## One step, results from the spec -/

/-- A small core: `MEM_SIZE` 0x1000, these register values, these words in memory. -/
def small (r : Realization) (pc : Word) (regs : List (RegIdx × Word)) (words : List (Nat × Word)) : State where
  cells     := regs.foldl (fun c p => c.set p.1.toNat p.2 p.1.isLt) (resetCells 0x1000 (Vector.replicate 32 0))
  pc        := pc
  run       := .running
  mem       := words.foldl (fun m p => Memory.writeWord m p.1 p.2) []
  bus       := resetBus 0 0
  clock     := 0
  output    := []
  hostState := 0
  params    := ⟨0x1000, r, .external⟩

/-- One step retires with `v` in register `rd` and this program counter. -/
def gives (s : State) (rd : RegIdx) (v pc : Word) : Bool :=
  match step s with
  | .next t => t.run == .running && readReg rd t == v && t.pc == pc
  | .fault _ | .refused _ => false

/-- One step traps so, and changes no register, no memory and not the program counter. -/
def faults (s : State) (tr : Trap) : Bool :=
  match step s with
  | .next t => t.run == .trapped tr && archRegs t == archRegs s && t.pc == s.pc && t.mem == s.mem
  | .fault _ | .refused _ => false

/-- One step leaves this word at this address and no other cell of memory but the instruction's. -/
def stores (s : State) (a : Nat) (w : Word) : Bool :=
  match step s with
  | .next t => t.run == .running && t.pc == s.pc + 4 && Memory.readWord t.mem a == w && archRegs t == archRegs s &&
      Memory.writeWord t.mem a 0 == Memory.writeWord s.mem a 0
  | .fault _ | .refused _ => false

/-- Register values for x5 and x6, the instruction at 0x100. -/
def alu (w x5 x6 : Word) : State := small .hardware 0x100 [(5, x5), (6, x6)] [(0x100, w)]

theorem test_step_addi : gives (alu 0xFFF28293 0x00000000 0x00000000) 5 0xFFFFFFFF 0x104 = true := by decide
theorem test_step_addi_overflow : gives (alu 0x7FF28313 0x7FFFF801 0x00000000) 6 0x80000000 0x104 = true := by decide
theorem test_step_addi_x0 : gives (alu 0x00128013 0x00000007 0x00000000) 0 0x00000000 0x104 = true := by decide
theorem test_step_slti : gives (alu 0x0002A313 0x80000000 0x00000000) 6 0x00000001 0x104 = true := by decide
theorem test_step_slti_equal : gives (alu 0x8002A313 0xFFFFF800 0x00000000) 6 0x00000000 0x104 = true := by decide
theorem test_step_sltiu : gives (alu 0x8002B313 0xFFFFF7FF 0x00000000) 6 0x00000001 0x104 = true := by decide
theorem test_step_sltiu_top : gives (alu 0xFFF2B313 0xFFFFFFFF 0x00000000) 6 0x00000000 0x104 = true := by decide
theorem test_step_xori : gives (alu 0x7FF2C313 0xFFFFFFFF 0x00000000) 6 0xFFFFF800 0x104 = true := by decide
theorem test_step_ori : gives (alu 0x8002E313 0x00000001 0x00000000) 6 0xFFFFF801 0x104 = true := by decide
theorem test_step_andi : gives (alu 0xFF02F313 0x12345678 0x00000000) 6 0x12345670 0x104 = true := by decide
theorem test_step_slli : gives (alu 0x01F29313 0x00000003 0x00000000) 6 0x80000000 0x104 = true := by decide
theorem test_step_srli : gives (alu 0x0042D313 0x80000010 0x00000000) 6 0x08000001 0x104 = true := by decide
theorem test_step_srai : gives (alu 0x4042D313 0x80000010 0x00000000) 6 0xF8000001 0x104 = true := by decide
theorem test_step_srai_positive : gives (alu 0x4012D313 0x7FFFFFFF 0x00000000) 6 0x3FFFFFFF 0x104 = true := by decide
theorem test_step_add : gives (alu 0x006283B3 0x7FFFFFFF 0x00000001) 7 0x80000000 0x104 = true := by decide
theorem test_step_add_same : gives (alu 0x005282B3 0x80000001 0x00000000) 5 0x00000002 0x104 = true := by decide
theorem test_step_sub : gives (alu 0x406283B3 0x80000000 0x00000001) 7 0x7FFFFFFF 0x104 = true := by decide
theorem test_step_sub_negate : gives (alu 0x406003B3 0x00000000 0x80000000) 7 0x80000000 0x104 = true := by decide
theorem test_step_sll : gives (alu 0x006293B3 0x00000001 0xFFFFFFFF) 7 0x80000000 0x104 = true := by decide
theorem test_step_sll_32 : gives (alu 0x006293B3 0x00000001 0x00000020) 7 0x00000001 0x104 = true := by decide
theorem test_step_slt : gives (alu 0x0062A3B3 0x80000000 0x7FFFFFFF) 7 0x00000001 0x104 = true := by decide
theorem test_step_slt_not : gives (alu 0x0062A3B3 0x7FFFFFFF 0x80000000) 7 0x00000000 0x104 = true := by decide
theorem test_step_sltu : gives (alu 0x0062B3B3 0x7FFFFFFF 0x80000000) 7 0x00000001 0x104 = true := by decide
theorem test_step_sltu_not : gives (alu 0x0062B3B3 0x80000000 0x00000000) 7 0x00000000 0x104 = true := by decide
theorem test_step_xor : gives (alu 0x0062C3B3 0xFF00FF00 0x0FF00FF0) 7 0xF0F0F0F0 0x104 = true := by decide
theorem test_step_srl : gives (alu 0x0062D3B3 0xF0000000 0x00000024) 7 0x0F000000 0x104 = true := by decide
theorem test_step_sra : gives (alu 0x4062D3B3 0xF0000000 0x00000024) 7 0xFF000000 0x104 = true := by decide
theorem test_step_or : gives (alu 0x0062E3B3 0xFF00FF00 0x0FF00FF0) 7 0xFFF0FFF0 0x104 = true := by decide
theorem test_step_and : gives (alu 0x0062F3B3 0x0000FFFF 0x00FFFF00) 7 0x0000FF00 0x104 = true := by decide
theorem test_step_lui : gives (alu 0xFFFFF2B7 0x00000000 0x00000000) 5 0xFFFFF000 0x104 = true := by decide
theorem test_step_auipc : gives (alu 0x00001297 0x00000000 0x00000000) 5 0x00001100 0x104 = true := by decide
theorem test_step_auipc_wraps : gives (alu 0xFFFFF297 0x00000000 0x00000000) 5 0xFFFFF100 0x104 = true := by decide

/-- V-BR: the branch at 0x100 with offset -16, taken to 0xF0, else 0x104. -/
def branchTo (w x5 x6 pc : Word) : Bool := gives (alu w x5 x6) 5 x5 pc
theorem test_step_beq : branchTo 0xFE6288E3 0x00000005 0x00000005 0x0F0 = true ∧
    branchTo 0xFE6288E3 0x00000001 0x00000002 0x104 = true := by decide
theorem test_step_bne : branchTo 0xFE6298E3 0x00000001 0x00000002 0x0F0 = true ∧
    branchTo 0xFE6298E3 0x00000005 0x00000005 0x104 = true := by decide
theorem test_step_blt : branchTo 0xFE62C8E3 0xFFFFFFFF 0x00000001 0x0F0 = true ∧
    branchTo 0xFE62C8E3 0x00000005 0x00000005 0x104 = true := by decide
theorem test_step_bge : branchTo 0xFE62D8E3 0x00000005 0x00000005 0x0F0 = true ∧
    branchTo 0xFE62D8E3 0x80000000 0x7FFFFFFF 0x104 = true := by decide
theorem test_step_bltu : branchTo 0xFE62E8E3 0x00000001 0x00000002 0x0F0 = true ∧
    branchTo 0xFE62E8E3 0xFFFFFFFF 0x00000001 0x104 = true := by decide
theorem test_step_bgeu : branchTo 0xFE62F8E3 0xFFFFFFFF 0x00000001 0x0F0 = true ∧
    branchTo 0xFE62F8E3 0x00000001 0x00000002 0x104 = true := by decide

theorem test_step_jal : gives (alu 0x001000EF 0 0) 1 0x104 0x900 = true := by decide
theorem test_step_jalr_same : gives (small .hardware 0x100 [(1, 0x200)] [(0x100, 0x000080E7)]) 1 0x104 0x200 = true := by decide
theorem test_step_jalr_bit0 : gives (alu 0xFFF28067 0x204 0) 0 0 0x202 = true := by decide
theorem test_step_misaligned_pc : faults (small .hardware 0x202 [] []) (.accessFault .misaligned 0x202) = true := by decide
theorem test_step_end_of_memory : faults (small .hardware 0x1000 [] []) (.accessFault .outOfRange 0x1000) = true := by decide
theorem test_step_illegal : faults (small .hardware 0 [] []) (.decodeFailure 0) = true := by decide

/-- V-LD and V-ST: the instruction at 0, 0x8899AABB at 0x100, `last` at 0xFFC, x5 the base, x6 the data. -/
def data (w x5 x6 last : Word) : State :=
  small .hardware 0 [(5, x5), (6, x6)] [(0, w), (0x100, 0x8899AABB), (0xFFC, last)]

theorem test_step_lb : gives (data 0x00128303 0x00000100 0x66666666 0x7F80FF01) 6 0xFFFFFFAA 4 = true := by decide
theorem test_step_lb_last : gives (data 0xFFF28303 0x00001000 0x66666666 0x7F80FF01) 6 0x0000007F 4 = true := by decide
theorem test_step_lbu : gives (data 0x0032C303 0x00000100 0x66666666 0x7F80FF01) 6 0x00000088 4 = true := by decide
theorem test_step_lbu_last : gives (data 0xFFE2C303 0x00001000 0x66666666 0x7F80FF01) 6 0x00000080 4 = true := by decide
theorem test_step_lh : gives (data 0x00229303 0x00000100 0x66666666 0x7F80FF01) 6 0xFFFF8899 4 = true := by decide
theorem test_step_lh_last : gives (data 0xFFE29303 0x00001000 0x66666666 0x7F80FF01) 6 0x00007F80 4 = true := by decide
theorem test_step_lhu : gives (data 0x0002D303 0x00000100 0x66666666 0x7F80FF01) 6 0x0000AABB 4 = true := by decide
theorem test_step_lhu_last : gives (data 0xFFC2D303 0x00001000 0x66666666 0x7F80FF01) 6 0x0000FF01 4 = true := by decide
theorem test_step_lw : gives (data 0x0002A303 0x00000100 0x66666666 0x7F80FF01) 6 0x8899AABB 4 = true := by decide
theorem test_step_lw_last : gives (data 0xFFC2A303 0x00001000 0x66666666 0x7F80FF01) 6 0x7F80FF01 4 = true := by decide
theorem test_fault_lb : faults (data 0x00028303 0x00001000 0x12345678 0) (.accessFault .outOfRange 0x00001000) = true := by decide
theorem test_fault_lh : faults (data 0x00329303 0x00000100 0x12345678 0) (.accessFault .misaligned 0x00000103) = true := by decide
theorem test_fault_lw : faults (data 0xFFE2A303 0x00001000 0x12345678 0) (.accessFault .misaligned 0x00000FFE) = true := by decide
theorem test_fault_lw_x0 : faults (data 0x0002A003 0x00001000 0x12345678 0) (.accessFault .outOfRange 0x00001000) = true := by decide
theorem test_fault_sb : faults (data 0x00628023 0x00001000 0x12345678 0) (.accessFault .outOfRange 0x00001000) = true := by decide
theorem test_fault_sh : faults (data 0x006290A3 0x00000100 0x12345678 0) (.accessFault .misaligned 0x00000101) = true := by decide
theorem test_fault_sw : faults (data 0x0062A023 0x00001000 0x12345678 0) (.accessFault .outOfRange 0x00001000) = true := by decide
theorem test_step_sb : stores (data 0x006280A3 0x00000100 0x12345678 0x8899AABB) 0x100 0x889978BB = true := by decide
theorem test_step_sb_last : stores (data 0xFE628FA3 0x00001000 0x12345678 0x8899AABB) 0xffc 0x7899AABB = true := by decide
theorem test_step_sh : stores (data 0x00629123 0x00000100 0x12345678 0x8899AABB) 0x100 0x5678AABB = true := by decide
theorem test_step_sh_last : stores (data 0xFE629F23 0x00001000 0x12345678 0x8899AABB) 0xffc 0x5678AABB = true := by decide
theorem test_step_sw : stores (data 0x0062A023 0x00000100 0x12345678 0x8899AABB) 0x100 0x12345678 = true := by decide
theorem test_step_sw_last : stores (data 0xFE62AE23 0x00001000 0x12345678 0x8899AABB) 0xffc 0x12345678 = true := by decide

/-- The same core with the reference handler, selector register 17 and argument register 10 (P1). -/
def withReference (signed : Bool) (selector argument : Word) : State :=
  let s := small .hardware 0x0C [(17, selector), (10, argument)] [(0x0C, 0x00000073)]
  { s with params := ⟨0x1000, .hardware, .reference 17 10 signed⟩ }

/-- One ECALL puts out these bytes, changes no register and continues at 0x10. -/
def prints (s : State) (bytes : List Byte) : Prop :=
  ∃ t, step s = .next t ∧ t.output = bytes ∧ archRegs t = archRegs s ∧ t.pc = 0x10 ∧ t.run = .running

theorem test_step_fence : gives (small .hardware 0x20 [] [(0x20, 0x0FF0000F)]) 2 0x1000 0x24 = true := by decide
theorem test_step_ebreak : faults (small .hardware 0x30 [] [(0x30, 0x00100073)]) (.breakpoint 0x30) = true := by decide
theorem test_step_ecall_number : prints (withReference false 1 5) [0x35, 0x0A] :=
  ⟨_, rfl, by decide, by decide, by decide, by decide⟩
theorem test_step_ecall_character : prints (withReference false 0 0x148) [0x48] :=
  ⟨_, rfl, by decide, by decide, by decide, by decide⟩

/-- Fetch of the last word of memory, with the clock units of R264: two in hardware, one in software. -/
theorem test_step_clock : (match step (small .hardware 0xFFC [] [(0xFFC, 0x00000013)]) with
    | .next t => t.clock == 2 && t.bus == ⟨0x3FF, 0, false⟩ | .fault _ | .refused _ => false) = true ∧
    (match step (small .software 0xFFC [] [(0xFFC, 0x00000013)]) with
    | .next t => t.clock == 1 && t.bus == ⟨0, 0, false⟩ | .fault _ | .refused _ => false) = true := by decide

/-- An instruction placed as the host places it runs first after reset. -/
theorem test_withFetchWord : gives (State.reset.withFetchWord 32 0x00500093) 1 5 4 = true := by decide


/-! ## Witnesses: the hypotheses of each statement are met, each clause at a boundary -/

/-- The last word of memory is `addi x1, x0, 5`, and the core is there. -/
def atLastWord : State := small .hardware 0xFFC [(5, 0x100)] [(0xFFC, 0x00500093)]

/-- An EBREAK at 0x30. -/
def atEbreak : State := small .software 0x30 [] [(0x30, 0x00100073)]

/-- `lw x6, -4(x5)` of the last word, at 0. -/
def atLoad : State := data 0xFFC2A303 0x1000 0 0x7F80FF01

/-- `sb x6, -1(x5)` of the last byte, at 0. -/
def atStore : State := data 0xFE628FA3 0x1000 0x12345678 0x8899AABB

/-- A jump to itself. -/
def atLoop : State := small .hardware 0x100 [] [(0x100, 0x0000006F)]

/-- A core in `Trapped`. -/
def stopped : State := { atEbreak with run := .trapped (.breakpoint 0x30) }

/-- A setup that starts, with an image of five bytes and other contents. -/
def setup : BootSetup := { resetSetup with memInit := [(3, 9), (7, 1)], image := [0x93, 0x00, 0x50, 0x00, 0x73] }

theorem witness_EncodedInstructionDecodesBack : (Instr.beq 1 2 0xFFFFF000).WellFormed := by decide
theorem witness_DecodedWordReencodes : decode 0x7E208FE3 = .ok (.beq 1 2 0xFFE) ∧ Instr.beq 1 2 0xFFE ≠ .fence := by decide
theorem witness_DecoderTakesTheOneMatchingRow :
    (0x41F2D313 : Word) &&& Kind.SRAI.row.mask = Kind.SRAI.row.pattern ∧
      ∀ k ∈ allKinds, (0x02B50533 : Word) &&& k.row.mask ≠ k.row.pattern := by decide
theorem witness_EcallAndEbreakAreSingleWords : (0x00200073 : Word).extractLsb' 0 7 = 0b1110011#7 ∧
    (0x00200073 : Word) ≠ 0x00000073 ∧ (0x00200073 : Word) ≠ 0x00100073 := by decide
theorem witness_UnlistedWordsTrap_bits : (0x00000002 : Word).extractLsb' 0 2 ≠ 0b11#2 := by decide
theorem witness_UnlistedWordsTrap_opcode : (0x0000002F : Word).extractLsb' 0 7 ∉ [0b0000011#7, 0b0001111#7, 0b0010011#7,
    0b0010111#7, 0b0100011#7, 0b0110011#7, 0b0110111#7, 0b1100011#7, 0b1100111#7, 0b1101111#7, 0b1110011#7] := by decide
theorem witness_UnlistedWordsTrap_fetch : (small .hardware 0xFFC [] []).run = .running ∧
    WordAccessible 0xFFC (small .hardware 0xFFC [] []) ∧
    ∀ k ∈ allKinds, fetchedWord (small .hardware 0xFFC [] []) &&& k.row.mask ≠ k.row.pattern := by decide

/-- A word's major opcode, funct3 and funct7. -/
def fields (w : Word) : BitVec 7 × BitVec 3 × BitVec 7 := (w.extractLsb' 0 7, w.extractLsb' 12 3, w.extractLsb' 25 7)

theorem witness_IllegalFieldsInsideMajorOpcodes : [0x00007003, 0x00003023, 0x00002063, 0x00001067, 0x40001013, 0x20005013,
      0x02B50533, 0x0000100F, 0x30200073].map fields =
    [(0b0000011, 0b111, 0), (0b0100011, 0b011, 0), (0b1100011, 0b010, 0), (0b1100111, 0b001, 0),
      (0b0010011, 0b001, 0b0100000), (0b0010011, 0b101, 0b0010000), (0b0110011, 0b000, 0b0000001),
      (0b0001111, 0b001, 0), (0b1110011, 0b000, 0b0011000)] := by decide
theorem witness_ImmediatesAreAssembledPerFormat : [(Kind.JALR, 0xFFC280E7), (.SRAI, 0x41F2D313), (.SW, 0x81F0A023),
      (.BNE, 0x80209063), (.LUI, 0xFFFFFFB7), (.JAL, 0x8000006F), (.ADD, 0x006283B3), (.FENCE, 0xFFFF8F8F),
      (.EBREAK, 0x00100073)].all (fun (p : Kind × Word) => p.2 &&& p.1.row.mask == p.1.row.pattern) = true := by decide

theorem witness_StepRunsTheDecodedInstruction : atLastWord.run = .running ∧ WordAccessible atLastWord.pc atLastWord ∧
    decode (fetchedWord atLastWord) = .ok (.addi 1 0 5) := by decide
theorem witness_FetchChecksThenReads_misaligned : (small .hardware 0x1002 [] []).run = .running ∧
    (small .hardware 0x1002 [] []).pc.toNat % 4 ≠ 0 := by decide
theorem witness_FetchChecksThenReads_outOfRange : (small .hardware 0x1000 [] []).run = .running ∧
    (small .hardware 0x1000 [] []).pc.toNat % 4 = 0 ∧
    (small .hardware 0x1000 [] []).params.memSize < (small .hardware 0x1000 [] []).pc.toNat + 4 := by decide
theorem witness_FetchChecksThenReads_ok : WordAccessible atLastWord.pc atLastWord := by decide
theorem witness_DecodingContinuesOrTraps : (small .software 0 [] []).run = .running ∧
    WordAccessible 0 (small .software 0 [] []) ∧
    decode (fetchedWord (small .software 0 [] [])) = .error (.unrecognizedEncoding 0) := by decide
theorem witness_EveryStepAnswersANextState : atEbreak.run = .running := by decide
theorem witness_StepTrapsExactlyAsTabled : atLoad.run = .running ∧ stepTrap atLoad = none ∧
    stepTrap atEbreak = some (.breakpoint 0x30) := by decide
theorem witness_TrappingStepIsPrecise : atEbreak.run = .running ∧ ∃ t, step atEbreak = .next t ∧
    t.run = .trapped (.breakpoint 0x30) := ⟨by decide, _, rfl, by decide⟩
theorem witness_TrappedIsTerminal : stopped.run = .trapped (.breakpoint 0x30) := by decide
theorem witness_RetiringCommitsTheNextPc : atLoop.run = .running ∧ ∃ t, exec (.beq 0 0 0xFFFFFF00) atLoop = .next t ∧
    t.run = .running ∧ t.pc = 0 := ⟨by decide, _, rfl, by decide, by decide⟩
theorem witness_EveryStepKeepsTheInvariant : Inv atStore ∧ ∃ t, step atStore = .next t ∧ t.mem ≠ atStore.mem :=
  ⟨⟨by decide, by decide, by decide, by decide, by decide, trivial⟩, _, rfl, by decide⟩
theorem witness_Inv_trapped : Inv stopped :=
  ⟨by decide, by decide, by decide, by decide, by decide, ⟨by decide, by decide, by decide⟩⟩
theorem witness_BootedCoreMeetsTheInvariant : ∃ s, State.boot setup = some s := ⟨_, rfl⟩
theorem witness_ResetGivesTheStatedValues : State.boot resetSetup = some State.reset := boot_resetSetup
theorem witness_ResetLeavesTheRestToTheSetup : ∃ s, State.boot { setup with xinit := Vector.replicate 32 7 } = some s ∧
    (31 : RegIdx) ≠ 0 ∧ (31 : RegIdx) ≠ 2 := ⟨_, rfl, by decide, by decide⟩
theorem witness_ImageIsLoadedFromAddressZero : (∃ s, State.boot setup = some s) ∧ 4 < setup.image.length ∧
    (setup.image.length ≤ 5 ∧ 5 < setup.params.memSize) ∧
    (setup.image.length ≤ 0x1FFF ∧ 0x1FFF < setup.params.memSize) ∧ setup.params.memSize ≤ 0x2000 ∧
    1 + 3 < setup.image.length ∧ setup.params.valid ∧ setup.image.length ≤ setup.params.memSize :=
  ⟨⟨_, rfl⟩, by decide, by decide, by decide, by decide, by decide, by decide, by decide⟩

/-- Contents beyond the image are the last cell listed, cells under the image and outside memory have no effect. -/
theorem test_boot_contents : ((State.boot { setup with memInit := [(3, 9), (7, 1), (7, 2), (0x2000, 5)] }).map fun s =>
    ([3, 4, 5, 7, 0x2000].map (Memory.readByte s.mem))) = some [0x00, 0x73, 0, 2, 0] := by decide
theorem witness_ImageIsLoadedFromAddressZero_tooLong :
    (⟨4, .software, .external⟩ : Params).memSize < setup.image.length := by decide
theorem witness_RealizationsAreTheSameToAProgram :
    SameToProgram atStore { atStore with params := ⟨0x1000, .software, .external⟩, bus := ⟨1, 2, false⟩, clock := 9 } :=
  ⟨rfl, rfl, rfl, rfl, rfl, rfl, rfl, rfl⟩
theorem witness_StepWritesAtMostOneRegister : ∃ t, step atLoad = .next t ∧ atLoad.run = .running ∧
    decode (fetchedWord atLoad) ≠ .ok .ecall ∧ readReg 6 t ≠ readReg 6 atLoad := ⟨_, rfl, by decide, by decide, by decide⟩
theorem witness_MemoryChangesOnlyWhereAStoreStores : Memory.wf atStore.mem ∧ atStore.run = .running ∧
    ∃ t, step atStore = .next t ∧ Memory.readByte t.mem 0xFFF ≠ Memory.readByte atStore.mem 0xFFF :=
  ⟨by decide, by decide, _, rfl, by decide⟩
theorem witness_OnlyEcallReachesTheHandler : ∃ t, step atStore = .next t ∧ atStore.run = .running ∧
    decode (fetchedWord atStore) ≠ .ok .ecall := ⟨_, rfl, by decide, by decide⟩
theorem witness_JumpToItselfNeverTraps : atLoop.run = .running ∧ WordAccessible atLoop.pc atLoop ∧
    fetchedWord atLoop = 0x0000006F := by decide

theorem witness_PortRoundTrip : Memory.wf atStore.mem ∧ WordAccessible 0xFFC atStore ∧ WordAccessible 0xFF8 atStore ∧
    (0xFF8 : Word) ≠ 0xFFC := by decide
theorem witness_PortTransactionsDriveTheBus : WordAccessible 0xFFC atStore ∧ WordAccessible 0 atEbreak ∧
    atStore.params.realization = .hardware ∧ atEbreak.params.realization = .software := by decide
theorem witness_WordAccessChecksAlignmentThenRange : (0x1001 : Word).toNat % 4 ≠ 0 ∧
    ((0x1000 : Word).toNat % 4 = 0 ∧ (0x1000 : Word).toNat + 4 > atStore.params.memSize) ∧
    ((0xFFC : Word).toNat % 4 = 0 ∧ (0xFFC : Word).toNat + 4 ≤ atStore.params.memSize) := by decide
theorem witness_ByteWriteReplacesOneLane : Memory.wf atStore.mem ∧ InMemory 0xFFF atStore ∧ ¬ InMemory 0x1000 atStore := by
  decide
theorem witness_MixedWidthAccessesAreLittleEndian : Memory.wf atStore.mem ∧ atStore.params.valid ∧
    WordAccessible 0xFFC atStore := by decide
theorem witness_StoreIsSeenByTheNextFetch : Memory.wf (small .hardware 0xFF8 [(5, 0xFFC)] []).mem ∧
    WordAccessible ((small .hardware 0xFF8 [(5, 0xFFC)] []).pc + 4) (small .hardware 0xFF8 [(5, 0xFFC)] []) ∧
    effectiveAddress 5 0 (small .hardware 0xFF8 [(5, 0xFFC)] []) = (small .hardware 0xFF8 [(5, 0xFFC)] []).pc + 4 := by decide

theorem witness_UpperImmediates : [0xFFFFFFB7, 0x80000097].map (fun (w : Word) => w.extractLsb' 0 7) =
    [0b0110111, 0b0010111] := by decide
theorem witness_AluImmediates : [0x80000093, 0x8002A313, 0xFFF2B313, 0x7FF2C313, 0x0F02E313, 0xFF02F313].map
      (fun w => ((fields w).1, (fields w).2.1)) = [(0b0010011, 0b000), (0b0010011, 0b010), (0b0010011, 0b011),
      (0b0010011, 0b100), (0b0010011, 0b110), (0b0010011, 0b111)] := by decide
theorem witness_ShiftImmediates : [0x01F09093, 0x0042D313, 0x41F2D313, 0x40001013].map fields =
    [(0b0010011, 0b001, 0), (0b0010011, 0b101, 0), (0b0010011, 0b101, 0b0100000), (0b0010011, 0b001, 0b0100000)] := by
  decide
theorem witness_AluRegisters : [0x006283B3, 0x406283B3, 0x0062A3B3, 0x0062B3B3, 0x0062C3B3, 0x0062E3B3, 0x0062F3B3].map fields =
    [(0b0110011, 0b000, 0), (0b0110011, 0b000, 0b0100000), (0b0110011, 0b010, 0), (0b0110011, 0b011, 0),
      (0b0110011, 0b100, 0), (0b0110011, 0b110, 0), (0b0110011, 0b111, 0)] := by decide
theorem witness_ShiftRegisters : [0x006293B3, 0x0062D3B3, 0x4062D3B3].map fields =
    [(0b0110011, 0b001, 0), (0b0110011, 0b101, 0), (0b0110011, 0b101, 0b0100000)] := by decide
theorem witness_HintsAreNoOps : Instr.addi 0 31 5 ∈ [Instr.addi 0 31 5, .and 0 31 31] := by decide
theorem witness_LoadImmediateExpansion : (31 : RegIdx) ≠ 0 := by decide
theorem witness_ConditionalBranches : [0x7E208FE3, 0x80209063, 0xFE504CE3, 0x0041D163, 0x0062E463, 0xFE62FEE3].map
      (fun w => ((fields w).1, (fields w).2.1)) = [(0b1100011, 0b000), (0b1100011, 0b001), (0b1100011, 0b100),
      (0b1100011, 0b101), (0b1100011, 0b110), (0b1100011, 0b111)] := by decide
theorem witness_JumpAndLink : (0x8000006F : Word).extractLsb' 0 7 = 0b1101111#7 := by decide
theorem witness_JumpAndLinkRegister : (0xFFC280E7 : Word).extractLsb' 0 7 = 0b1100111#7 ∧
    (0xFFC280E7 : Word).extractLsb' 12 3 = 0b000#3 := by decide
theorem witness_BadTargetsFaultAtTheNextFetch_misaligned : atLoop.run = .running ∧
    ∃ t, exec (.jal 1 2) atLoop = .next t ∧ t.pc.toNat % 4 ≠ 0 ∧ (1 : RegIdx) ≠ 0 := ⟨by decide, _, rfl, by decide, by decide⟩
theorem witness_BadTargetsFaultAtTheNextFetch_outOfRange : atLoop.run = .running ∧
    ∃ t, exec (.jalr 1 2 0) atLoop = .next t ∧ t.pc.toNat % 4 = 0 ∧ t.params.memSize < t.pc.toNat + 4 :=
  ⟨by decide, _, rfl, by decide, by decide⟩

theorem witness_ByteLoads : InMemory (readReg 5 atStore + 0xFFFFFFFF) atStore ∧ ¬ InMemory (readReg 5 atStore + 0) atStore ∧
    (fields 0x00128303).2.1 = 0b000 ∧ (fields 0x0032C303).2.1 = 0b100 := by decide
theorem witness_HalfwordLoads : ((0xFFE : Word).toNat % 2 = 0 ∧ InMemory 0xFFE atLoad) ∧ (0xFFF : Word).toNat % 2 ≠ 0 ∧
    ((0x1000 : Word).toNat % 2 = 0 ∧ ¬ InMemory 0x1000 atLoad) ∧
    (fields 0x00229303).2.1 = 0b001 ∧ (fields 0xFFC2D303).2.1 = 0b101 := by decide
theorem witness_WordLoads : WordAccessible 0xFFC atLoad ∧ (0xFFE : Word).toNat % 4 ≠ 0 ∧
    ((0x1000 : Word).toNat % 4 = 0 ∧ atLoad.params.memSize < (0x1000 : Word).toNat + 4) ∧
    (fields 0x7FF2A303).2.1 = 0b010 := by decide
theorem witness_ByteStores : Memory.wf atStore.mem ∧ InMemory 0xFFF atStore ∧ ¬ InMemory 0x1000 atStore ∧
    (fields 0x7E320FA3).2.1 = 0b000 := by decide
theorem witness_HalfwordStores : Memory.wf atStore.mem ∧ ((0xFFE : Word).toNat % 2 = 0 ∧ InMemory 0xFFE atStore) ∧
    (0xFFF : Word).toNat % 2 ≠ 0 ∧ ((0x1000 : Word).toNat % 2 = 0 ∧ ¬ InMemory 0x1000 atStore) ∧
    (fields 0xFE629F23).2.1 = 0b001 := by decide
theorem witness_WordStores : Memory.wf atStore.mem ∧ WordAccessible 0xFFC atStore ∧ (0xFFE : Word).toNat % 4 ≠ 0 ∧
    ((0x1000 : Word).toNat % 4 = 0 ∧ atStore.params.memSize < (0x1000 : Word).toNat + 4) ∧
    (fields 0x81F0A023).2.1 = 0b010 := by decide

theorem witness_FenceIsANoOp : (fields 0xFFFF8F8F).1 = 0b0001111 ∧ (fields 0xFFFF8F8F).2.1 = 0b000 ∧ atStore.cells[0] = 0 := by
  decide
theorem witness_EbreakStopsTheCore : atEbreak.run = .running ∧ WordAccessible atEbreak.pc atEbreak ∧
    fetchedWord atEbreak = 0x00100073 := by decide
theorem witness_HandlerSeesOnlyTheRegisters : atStore.params.handler = .external ∧
    atStore.params.handler = (retireTo 0x77C atStore).params.handler ∧
    atStore.hostState = (retireTo 0x77C atStore).hostState ∧ SameRegs atStore (retireTo 0x77C atStore) :=
  ⟨rfl, rfl, rfl, fun _ => rfl⟩
theorem witness_ReferenceHandlerPrints : (withReference true 1 0x80000000).params.handler = .reference 17 10 true ∧
    readReg 17 (withReference true 1 0x80000000) = 1 ∧ readReg 17 (withReference true 0 0) = 0 ∧
    readReg 17 (withReference true 2 0) ≠ 0 ∧ readReg 17 (withReference true 2 0) ≠ 1 := by decide
theorem witness_ClockUnitsOfARetiredInstruction : atStore.run = .running ∧ WordAccessible atStore.pc atStore ∧
    decode (fetchedWord atStore) = .ok (.sb 5 6 0xFFFFFFFF) ∧ ∃ t, step atStore = .next t ∧ t.run = .running ∧
    clockUnits (.sb 5 6 0xFFFFFFFF) atStore = 4 := ⟨by decide, by decide, by decide, _, rfl, by decide, by decide⟩

end Sys2Proof.Tests
end

section
/-! Proofs about register writes: what one write does (`10_state.md` R11, R12), and how many registers one step can
change (`40_core_cycle.md` R98, R99). -/

namespace Sys2Proof.Machine

/-! ## One register write -/

/-- R12: the raw cell holds the value written, register 0's included. -/
theorem writeReg_cell_self (i : RegIdx) (v : Word) (s : State) : (writeReg i v s).cells[i.toNat]'i.isLt = v :=
  Vector.getElem_set_self i.isLt

theorem readReg_writeReg_self {i : RegIdx} (hi : i ≠ 0) (v : Word) (s : State) : readReg i (writeReg i v s) = v := by
  rw [readReg_writeReg, if_pos ⟨rfl, hi⟩]

theorem readReg_writeReg_ne {i j : RegIdx} (hj : j ≠ i) (v : Word) (s : State) :
    readReg j (writeReg i v s) = readReg j s := by
  rw [readReg_writeReg, if_neg (fun h => hj h.1)]

/-- R12: no read sees a write to register 0. -/
theorem sameRegs_writeReg_zero (v : Word) (s : State) : SameRegs s (writeReg 0 v s) := fun j => by
  rw [readReg_writeReg, if_neg (fun h => h.2 h.1)]

/-! ## The registers through a step -/

/-- Fetching, the clock unit and the clearing of raw cell 0 change no register. -/
theorem sameRegs_dispatchState (s : State) : SameRegs s (dispatchState s) := fun i => by
  rw [dispatchState, readReg_beginDispatch, readReg_busRead]

/-- Whichever phase a step traps in, the state it traps in has the registers from before the step (R98). -/
theorem sameRegs_takeTrap {s b : State} (hb : b = s ∨ b = busRead s.pc s ∨ b = dispatchState s) (tr : Trap) :
    SameRegs s (takeTrap tr b) := fun i => by
  rw [readReg_takeTrap]
  obtain rfl | rfl | rfl := hb
  · rfl
  · exact readReg_busRead _ i s
  · exact sameRegs_dispatchState s i

theorem sameRegs_haltTick (s : State) : SameRegs s (haltTick s) := readReg_congr (haltTick_cells s)

/-- A retired instruction other than ECALL changes the reading of at most one register. -/
theorem Retired.readReg_of_ne {i : Instr} {s t : State} (h : Retired i s t) (hi : i ≠ .ecall) :
    ∃ rd : RegIdx, ∀ j : RegIdx, j ≠ rd → readReg j t = readReg j s := by
  obtain ⟨rd, v, hc | hc⟩ := h.oneRegister hi
  · exact ⟨rd, fun j _ => readReg_congr hc j⟩
  · exact ⟨rd, fun j hj => (readReg_congr hc j).trans (readReg_writeReg_ne hj v s)⟩

/-- A step of a running core that executes no ECALL changes at most one register. -/
theorem step_changes_at_most_one_register {s t : State} (hs : step s = .next t) (hr : s.run = .running)
    (hne : decode (fetchedWord s) ≠ .ok .ecall) : ∃ rd : RegIdx, ∀ j : RegIdx, j ≠ rd → readReg j t = readReg j s := by
  obtain ⟨i, u, hu, -, -, hd, -, -, hret⟩ | ⟨tr, b, hu, -, hb⟩ := step_cases hr
  · obtain rfl : u = t := by simpa [hu] using hs
    have hi : i ≠ .ecall := fun h => hne (h ▸ hd)
    obtain ⟨rd, hrd⟩ := hret.readReg_of_ne hi
    exact ⟨rd, fun j hj => (hrd j hj).trans (sameRegs_dispatchState s j)⟩
  · obtain rfl : takeTrap tr b = t := by simpa [hu] using hs
    exact ⟨0, fun j _ => sameRegs_takeTrap hb tr j⟩

/-- A step that ends in `Trapped` changes no register: a retired instruction leaves the core running, so the step
either raised the trap or was taken in `Trapped` already. -/
theorem step_trapped_sameRegs {s t : State} {tr : Trap} (hs : step s = .next t) (ht : t.run = .trapped tr) :
    SameRegs s t := by
  cases hr : s.run with
  | trapped tr' =>
    obtain rfl : haltTick s = t := by simpa [step_trapped hr] using hs
    exact sameRegs_haltTick s
  | running =>
    obtain ⟨i, u, hu, -, -, -, -, -, hret⟩ | ⟨tr', b, hu, -, hb⟩ := step_cases hr
    · obtain rfl : u = t := by simpa [hu] using hs
      have hrun : u.run = .running := hret.run.trans (by simp [dispatchState, hr])
      simp [hrun] at ht
    · obtain rfl : takeTrap tr' b = t := by simpa [hu] using hs
      exact sameRegs_takeTrap hb tr'

/-- Settles O25: the first two clauses are the rules of one register write, the last two follow from the ways a step
can end (`step_cases`). -/
theorem stepWritesAtMostOneRegister : Obligations.StepWritesAtMostOneRegister :=
  ⟨fun s i v => ⟨writeReg_cell_self i v s, fun hi => readReg_writeReg_self hi v s,
      fun _ hj => readReg_writeReg_ne hj v s⟩,
    fun s v => ⟨sameRegs_writeReg_zero v s, writeReg_run 0 v s⟩,
    fun _ _ => step_changes_at_most_one_register,
    fun _ _ _ => step_trapped_sameRegs⟩

end Sys2Proof.Machine
end

section
/-! Proofs about the memory port: a word written is the word read back, and every other word is left alone
(`20_memory.md` R31, R32). -/

namespace Sys2Proof.Machine

/-- Aligned words overlap only when they are the same word. -/
theorem aligned_words_disjoint {a b : Word} (ha : a.toNat % 4 = 0) (hb : b.toNat % 4 = 0) (hne : b ≠ a) :
    b.toNat + 4 ≤ a.toNat ∨ a.toNat + 4 ≤ b.toNat := by
  have hne' : b.toNat ≠ a.toNat := fun h => hne (BitVec.eq_of_toNat_eq h)
  omega

/-- Writing an aligned word leaves every other aligned word as it was. -/
theorem readWord_writeWord_aligned_ne {m : Memory} (hm : Memory.wf m) {a b : Word} (ha : a.toNat % 4 = 0)
    (hb : b.toNat % 4 = 0) (hne : b ≠ a) (w : Word) :
    Memory.readWord (Memory.writeWord m a.toNat w) b.toNat = Memory.readWord m b.toNat :=
  Memory.readWord_writeWord_ne hm (aligned_words_disjoint ha hb hne) w

/-- The port reads back exactly the word a state's memory was last written with, and leaves memory alone. -/
theorem portRead_of_mem_eq_writeWord {m : Memory} (hm : Memory.wf m) {a w : Word} {t : State} (ht : WordAccessible a t)
    (hmem : t.mem = Memory.writeWord m a.toNat w) : ∃ u, portRead a t = .ok w u ∧ u.mem = t.mem := by
  refine ⟨busRead a t, ?_, busRead_mem a t⟩
  rw [portRead_ok ht, hmem, Memory.readWord_writeWord hm]

/-- Settles O29: the write answers, its bus transaction leaves the written memory and the memory size alone, so the
port reads the word back and the frame is that of one aligned word. -/
theorem portRoundTrip : Obligations.PortRoundTrip := by
  intro a w s hm ha
  have hmem := busWrite_mem a w { s with mem := Memory.writeWord s.mem a.toNat w }
  refine ⟨_, portWrite_ok ha w, portRead_of_mem_eq_writeWord hm ?_ hmem, fun b hb hne => ?_⟩
  · rw [WordAccessible, busWrite_params]
    exact ha
  · rw [hmem]
    exact readWord_writeWord_aligned_ne hm ha.1 hb.1 hne w

end Sys2Proof.Machine
end

section
/-! Proofs about the arithmetic and logical instructions (`41_alu.md`): which words they have, by the columns of their
rows (`30_encoding.md` R72), and what they write, by the operation on the two operand values (R110 to R130). -/

namespace Sys2Proof.Machine

/-! ## The words of a row of R or I format -/

/-- A row's funct3 column, where it has one. -/
theorem funct3_eq_of_mem {k : Kind} {f : BitVec 3} (h : f ∈ k.row.funct3) : k.funct3 = f := by
  rw [Kind.funct3, Option.mem_def.mp h, Option.getD_some]

/-- A row's funct7 column, where it has one. -/
theorem funct7_eq_of_mem {k : Kind} {f : BitVec 7} (h : f ∈ k.row.funct7) : k.funct7 = f := by
  rw [Kind.funct7, Option.mem_def.mp h, Option.getD_some]

/-- An R-format row has every word with its opcode, funct3 and funct7 columns. -/
theorem decodesR_of_row {k : Kind} {mk : RegIdx → RegIdx → RegIdx → Instr} (hf : k.row.format = .r)
    (hmk : ∀ w, (recordOf k w).toInstr = mk (w.extractLsb' 7 5) (w.extractLsb' 15 5) (w.extractLsb' 20 5)) :
    DecodesR k.opcode k.funct3 k.funct7 mk := by
  intro w ho h3 h7
  rw [← hmk]
  apply decode_of_fields
  rw [hf]
  exact ⟨ho, fun _ h => h3.trans (funct3_eq_of_mem h), fun _ h => h7.trans (funct7_eq_of_mem h)⟩

/-- An I-format row without a funct7 column has every word with its opcode and funct3 columns. -/
theorem decodesI_of_row {k : Kind} {mk : RegIdx → RegIdx → Word → Instr} (hf : k.row.format = .i)
    (hnone : k.row.funct7 = none)
    (hmk : ∀ w, (recordOf k w).toInstr = mk (w.extractLsb' 7 5) (w.extractLsb' 15 5) (immI w)) :
    DecodesI k.opcode k.funct3 mk := by
  intro w ho h3
  rw [← immI, ← hmk]
  apply decode_of_fields
  rw [hf, hnone]
  exact ⟨ho, fun _ h => h3.trans (funct3_eq_of_mem h), by simp⟩

/-! ## The operations on two values, as numbers -/

/-- R120: addition modulo 2^32. -/
theorem addWords_number (a b : Word) : addWords a b = BitVec.ofNat 32 (a.toNat + b.toNat) := BitVec.add_def a b

/-- R121: subtraction modulo 2^32; the signed values give the same word as the unsigned ones. -/
theorem subWords_number (a b : Word) : subWords a b = BitVec.ofInt 32 (a.toInt - b.toInt) :=
  BitVec.eq_of_toInt_eq (by rw [subWords, BitVec.toInt_sub, BitVec.toInt_ofInt])

/-- R112, R123: the comparison of the two signed values. -/
theorem setLessSigned_number (a b : Word) : setLessSigned a b = if a.toInt < b.toInt then 1 else 0 := setIf_decide _

/-- R113, R124: the comparison of the two unsigned values. -/
theorem setLessUnsigned_number (a b : Word) : setLessUnsigned a b = if a.toNat < b.toNat then 1 else 0 := setIf_decide _

/-! ## The operand forms, given the operation's value -/

theorem computes_regImm {f : Word → Word → Word} {rs1 : RegIdx} {imm v : Word} {s : State}
    (hv : f (readReg rs1 s) imm = v) (rd : RegIdx) : Computes (regImm f rd rs1 imm s) s rd v (s.pc + 4) :=
  hv ▸ computes_result rd _ s

theorem computes_regReg {f : Word → Word → Word} {rs1 rs2 : RegIdx} {v : Word} {s : State}
    (hv : f (readReg rs1 s) (readReg rs2 s) = v) (rd : RegIdx) : Computes (regReg f rd rs1 rs2 s) s rd v (s.pc + 4) :=
  hv ▸ computes_result rd _ s

/-! ## The obligations: for each instruction its row, and the value of its operation -/

/-- Settles O36. -/
theorem aluImmediates : Obligations.AluImmediates :=
  ⟨decodesI_of_row (k := .ADDI) rfl rfl fun _ => rfl, decodesI_of_row (k := .SLTI) rfl rfl fun _ => rfl,
    decodesI_of_row (k := .SLTIU) rfl rfl fun _ => rfl, decodesI_of_row (k := .XORI) rfl rfl fun _ => rfl,
    decodesI_of_row (k := .ORI) rfl rfl fun _ => rfl, decodesI_of_row (k := .ANDI) rfl rfl fun _ => rfl,
    fun rd _ _ _ =>
      ⟨computes_regImm (f := addWords) rfl rd,
        computes_regImm (setLessSigned_number _ _) rd,
        computes_regImm (setLessUnsigned_number _ _) rd,
        computes_regImm (f := xorWords) rfl rd,
        computes_regImm (f := orWords) rfl rd,
        computes_regImm (f := andWords) rfl rd⟩⟩

/-- Settles O38. -/
theorem aluRegisters : Obligations.AluRegisters :=
  ⟨decodesR_of_row (k := .ADD) rfl fun _ => rfl, decodesR_of_row (k := .SUB) rfl fun _ => rfl,
    decodesR_of_row (k := .SLT) rfl fun _ => rfl, decodesR_of_row (k := .SLTU) rfl fun _ => rfl,
    decodesR_of_row (k := .XOR) rfl fun _ => rfl, decodesR_of_row (k := .OR) rfl fun _ => rfl,
    decodesR_of_row (k := .AND) rfl fun _ => rfl,
    fun rd _ _ _ =>
      ⟨computes_regReg (addWords_number _ _) rd,
        computes_regReg (subWords_number _ _) rd,
        computes_regReg (setLessSigned_number _ _) rd,
        computes_regReg (setLessUnsigned_number _ _) rd,
        computes_regReg (f := xorWords) rfl rd,
        computes_regReg (f := orWords) rfl rd,
        computes_regReg (f := andWords) rfl rd⟩⟩

/-- Settles O39: the shift distance is the low five bits of `x[rs2]`, a number modulo 32. -/
theorem shiftRegisters : Obligations.ShiftRegisters :=
  ⟨decodesR_of_row (k := .SLL) rfl fun _ => rfl, decodesR_of_row (k := .SRL) rfl fun _ => rfl,
    decodesR_of_row (k := .SRA) rfl fun _ => rfl,
    fun rd _ _ _ =>
      ⟨computes_regReg (shiftLeft_number _ _) rd,
        computes_regReg (shiftRightLogical_number _ _) rd,
        computes_regReg (shiftRightArith_number _ _) rd⟩⟩

end Sys2Proof.Machine
end

section
/-! Proofs about LUI and AUIPC (`42_upper_immediate.md`): which words they have, by the opcode column of their rows
(`30_encoding.md` R72), and what they write: the U-immediate as delivered, or its sum with the address of the
instruction itself (R140 to R142). -/

namespace Sys2Proof.Machine

/-- A U-format row without funct3 and funct7 columns has every word with its opcode column. -/
theorem decodesU_of_row {k : Kind} {mk : RegIdx → Word → Instr} (hf : k.row.format = .u) (h3 : k.row.funct3 = none)
    (h7 : k.row.funct7 = none) (hmk : ∀ w, (recordOf k w).toInstr = mk (w.extractLsb' 7 5) (immU w)) :
    DecodesU k.opcode mk := by
  intro w ho
  rw [← immU, ← hmk]
  apply decode_of_fields
  rw [hf, h3, h7]
  exact ⟨ho, by simp, by simp⟩

/-- R141: the immediate is written verbatim. -/
theorem computes_lui (rd : RegIdx) (imm : Word) (s : State) : Computes (exec (.lui rd imm) s) s rd imm (s.pc + 4) :=
  computes_result rd imm s

/-- R142: the address added is that of the AUIPC itself. -/
theorem computes_auipc (rd : RegIdx) (imm : Word) (s : State) :
    Computes (exec (.auipc rd imm) s) s rd (s.pc + imm) (s.pc + 4) :=
  computes_result rd (s.pc + imm) s

/-- Settles O35: for each instruction its row, and the one result it writes. -/
theorem upperImmediates : Obligations.UpperImmediates :=
  ⟨decodesU_of_row (k := .LUI) rfl rfl rfl fun _ => rfl, computes_lui,
    decodesU_of_row (k := .AUIPC) rfl rfl rfl fun _ => rfl, computes_auipc⟩

end Sys2Proof.Machine
end

section
/-! Proofs about the conditional branches (`43_branch.md`): which words they have, by the opcode and funct3 columns of
their rows (`30_encoding.md` R72), and where they go, by the comparison of the two register values (R150 to R156). -/

namespace Sys2Proof.Machine

/-- A B-format row without a funct7 column has every word with its opcode and funct3 columns. -/
theorem decodesB_of_row {k : Kind} {mk : RegIdx → RegIdx → Word → Instr} (hf : k.row.format = .b)
    (hnone : k.row.funct7 = none)
    (hmk : ∀ w, (recordOf k w).toInstr = mk (w.extractLsb' 15 5) (w.extractLsb' 20 5) (immB w)) :
    DecodesB k.opcode k.funct3 mk := by
  intro w ho h3
  rw [← immB, ← hmk]
  apply decode_of_fields
  rw [hf, hnone]
  exact ⟨ho, fun _ h => h3.trans (funct3_eq_of_mem h), by simp⟩

/-- R150: a branch goes where the proposition its comparison decides says. -/
theorem continues_branchIf {cond : Word → Word → Bool} {p : Word → Word → Prop} [∀ a b, Decidable (p a b)]
    (hp : ∀ a b, cond a b = decide (p a b)) (rs1 rs2 : RegIdx) (imm : Word) (s : State) :
    Continues (branchIf cond rs1 rs2 imm s) s (if p (readReg rs1 s) (readReg rs2 s) then s.pc + imm else s.pc + 4) := by
  rw [branchIf, hp]
  exact continues_branch _ imm s

/-- Settles O42: for each branch its row, and the relation on the two register values that its comparison decides. -/
theorem conditionalBranches : Obligations.ConditionalBranches :=
  ⟨decodesB_of_row (k := .BEQ) rfl rfl fun _ => rfl, decodesB_of_row (k := .BNE) rfl rfl fun _ => rfl,
    decodesB_of_row (k := .BLT) rfl rfl fun _ => rfl, decodesB_of_row (k := .BGE) rfl rfl fun _ => rfl,
    decodesB_of_row (k := .BLTU) rfl rfl fun _ => rfl, decodesB_of_row (k := .BGEU) rfl rfl fun _ => rfl,
    fun rs1 rs2 imm s =>
      ⟨continues_branchIf (cond := equal) (p := fun a b => a = b) (fun _ _ => rfl) rs1 rs2 imm s,
        continues_branchIf (cond := notEqual) (p := fun a b => a ≠ b) (fun _ _ => rfl) rs1 rs2 imm s,
        continues_branchIf (cond := lessSigned) (p := fun a b => a.toInt < b.toInt) (fun _ _ => rfl) rs1 rs2 imm s,
        continues_branchIf (cond := geSigned) (p := fun a b => a.toInt ≥ b.toInt) (fun _ _ => rfl) rs1 rs2 imm s,
        continues_branchIf (cond := lessUnsigned) (p := fun a b => a.toNat < b.toNat) (fun _ _ => rfl) rs1 rs2 imm s,
        continues_branchIf (cond := geUnsigned) (p := fun a b => a.toNat ≥ b.toNat) (fun _ _ => rfl) rs1 rs2 imm s⟩⟩

end Sys2Proof.Machine
end

section
/-! Proofs about the direct jump JAL (`44_jump.md`): which words it has, by the opcode column of its row
(`30_encoding.md` R72), and where it goes, with the link it leaves behind (R165, R166). -/

namespace Sys2Proof.Machine

/-- A J-format row without funct3 and funct7 columns has every word with its opcode column. -/
theorem decodesJ_of_row {k : Kind} {mk : RegIdx → Word → Instr} (hf : k.row.format = .j) (h3 : k.row.funct3 = none)
    (h7 : k.row.funct7 = none) (hmk : ∀ w, (recordOf k w).toInstr = mk (w.extractLsb' 7 5) (immJ w)) :
    DecodesJ k.opcode mk := by
  intro w ho
  rw [← immJ, ← hmk]
  apply decode_of_fields
  rw [hf, h3, h7]
  exact ⟨ho, by simp, by simp⟩

/-- R12: a result written to register 0 is seen by no read. -/
theorem WritesOnly.sameRegs_of_zero {v : Word} {s t : State} (h : WritesOnly 0 v s t) : SameRegs s t := fun i => by
  rw [h i, if_neg (fun hi => hi.2 hi.1)]

/-- An instruction whose one result goes to register 0 does nothing but continue. -/
theorem Computes.continues_of_zero {o : Result} {s : State} {v next : Word} (h : Computes o s 0 v next) :
    Continues o s next := by
  obtain ⟨t, ho, hregs, hpc, hframe⟩ := h
  exact ⟨t, ho, hpc, hregs.sameRegs_of_zero, hframe⟩

/-- R166: the link is `pc + 4` and the target `pc + imm`, both of the JAL's own address. -/
theorem computes_jal (rd : RegIdx) (imm : Word) (s : State) :
    Computes (exec (.jal rd imm) s) s rd (s.pc + 4) (s.pc + imm) :=
  computes_linkAndJump rd (relativeTarget imm s) s

/-- JAL to itself without a link: register 0 takes the link, and the target `pc + 0` is `pc`. -/
theorem continues_jal_self (s : State) : Continues (exec (.jal 0 0) s) s s.pc := by
  have htarget : s.pc + 0 = s.pc := BitVec.add_zero s.pc
  have hjump := (computes_jal 0 0 s).continues_of_zero
  rwa [htarget] at hjump

/-- Settles O43: the row of JAL, its link and target; the jump to itself is the case of register 0 and distance 0. -/
theorem jumpAndLink : Obligations.JumpAndLink :=
  ⟨decodesJ_of_row (k := .JAL) rfl rfl rfl fun _ => rfl, computes_jal, continues_jal_self⟩

end Sys2Proof.Machine
end

section
/-! Proofs about run state `Trapped` (`60_exceptions.md` R226): a step there is one clock unit, so `n` steps are `n`
clock units. -/

namespace Sys2Proof.Machine

theorem tick_tick (m n : Nat) (s : State) : tick n (tick m s) = tick (m + n) s := by
  simp only [tick, Nat.add_assoc]

/-- R226: in `Trapped` `n` steps are `n` clock units and nothing else, since the first of them leaves the core in the
same `Trapped`. -/
theorem run_trapped {s : State} {tr : Trap} (h : s.run = .trapped tr) (n : Nat) :
    Sys2Proof.core.run n s = .next (tick n s) := by
  induction n generalizing s with
  | zero => rfl
  | succ n ih =>
    have hrest : Sys2Proof.core.run n (haltTick s) = .next (tick n (haltTick s)) := ih ((haltTick_run s).trans h)
    rw [run_next (M := Sys2Proof.core) (step_trapped h), hrest, haltTick, tick_tick, Nat.add_comm]

/-- Settles O16: after `n` steps the clock is exactly `n` units further. -/
theorem trappedIsTerminal : Obligations.TrappedIsTerminal :=
  fun s _ n h => ⟨s.clock + n, le_rfl, run_trapped h n⟩

end Sys2Proof.Machine
end

section
/-! Proofs about reset (`70_reset_and_hazards.md`): what the register file a core starts with holds, and the stated
values of R251, R252 and R255. -/

namespace Sys2Proof.Machine

/-- R252: cell 2 at reset is the memory size. -/
@[simp] theorem resetCells_two (memSize : Nat) (xinit : RegFile) :
    (resetCells memSize xinit)[2] = BitVec.ofNat 32 memSize :=
  Vector.getElem_set_self _

/-- R252: register 2 of a core that starts is the memory size, as a word. -/
theorem readReg_two_of_boot {b : BootSetup} {s : State} (h : State.boot b = some s) :
    readReg 2 s = BitVec.ofNat 32 b.params.memSize := by
  obtain ⟨-, -, rfl⟩ := boot_some h
  exact resetCells_two b.params.memSize b.xinit

/-- Settles O21: the memory size is a multiple of 4 (R30), and so is its remainder modulo 2^32, as 4 divides 2^32. -/
theorem resetGivesTheStatedValues : Obligations.ResetGivesTheStatedValues := by
  intro b s h
  have hsp : (readReg 2 s).toNat = b.params.memSize % 2 ^ 32 := by
    rw [readReg_two_of_boot h, BitVec.toNat_ofNat]
  obtain ⟨⟨hfour, -, -⟩, -, rfl⟩ := boot_some h
  refine ⟨readReg_zero _, hsp, ?_, rfl⟩
  rw [hsp]
  omega

end Sys2Proof.Machine
end

section
/-! Proofs that encode and decode agree (`30_encoding.md` R65 to R74): format by format, the record read from an encoded
word holds the operands it was written with, and writing a decoded word's fields again gives the word. -/

namespace Sys2Proof

/-! ## Reading an encoded word -/

section Encoded

variable {k : Kind} {imm : Word} {rd rs1 rs2 : RegIdx}

theorem toInstr_encodeR {mk : RegIdx → RegIdx → RegIdx → Instr}
    (hmk : ∀ w, (recordOf k w).toInstr = mk (w.extractLsb' 7 5) (w.extractLsb' 15 5) (w.extractLsb' 20 5)) :
    (recordOf k (encodeR k rs2 rs1 rd)).toInstr = mk rd rs1 rs2 := by
  obtain ⟨-, -, -, hrd, hrs1, hrs2⟩ := encodeR_fields k rs2 rs1 rd
  rw [hmk, hrd, hrs1, hrs2]

theorem toInstr_encodeI {mk : RegIdx → RegIdx → Word → Instr}
    (hmk : ∀ w, (recordOf k w).toInstr = mk (w.extractLsb' 7 5) (w.extractLsb' 15 5) (immI w))
    (h : fits12 imm = true) : (recordOf k (encodeI k imm rs1 rd)).toInstr = mk rd rs1 imm := by
  obtain ⟨-, -, hrd, hrs1, -⟩ := encodeI_fields k imm rs1 rd
  rw [hmk, hrd, hrs1, immI_encodeI h]

theorem toInstr_encodeS {mk : RegIdx → RegIdx → Word → Instr}
    (hmk : ∀ w, (recordOf k w).toInstr = mk (w.extractLsb' 15 5) (w.extractLsb' 20 5) (immS w))
    (h : fits12 imm = true) : (recordOf k (encodeS k imm rs2 rs1)).toInstr = mk rs1 rs2 imm := by
  obtain ⟨-, -, hrs1, hrs2, -⟩ := encodeS_fields k imm rs2 rs1
  rw [hmk, hrs1, hrs2, immS_encodeS h]

theorem toInstr_encodeB {mk : RegIdx → RegIdx → Word → Instr}
    (hmk : ∀ w, (recordOf k w).toInstr = mk (w.extractLsb' 15 5) (w.extractLsb' 20 5) (immB w))
    (h : fitsB imm = true) : (recordOf k (encodeB k imm rs2 rs1)).toInstr = mk rs1 rs2 imm := by
  obtain ⟨-, -, hrs1, hrs2, -⟩ := encodeB_fields k imm rs2 rs1
  rw [hmk, hrs1, hrs2, immB_encodeB h]

theorem toInstr_encodeU {mk : RegIdx → Word → Instr}
    (hmk : ∀ w, (recordOf k w).toInstr = mk (w.extractLsb' 7 5) (immU w))
    (h : fitsU imm = true) : (recordOf k (encodeU k imm rd)).toInstr = mk rd imm := by
  obtain ⟨-, hrd, -⟩ := encodeU_fields k imm rd
  rw [hmk, hrd, immU_encodeU h]

theorem toInstr_encodeJ {mk : RegIdx → Word → Instr}
    (hmk : ∀ w, (recordOf k w).toInstr = mk (w.extractLsb' 7 5) (immJ w))
    (h : fitsJ imm = true) : (recordOf k (encodeJ k imm rd)).toInstr = mk rd imm := by
  obtain ⟨-, hrd, -⟩ := encodeJ_fields k imm rd
  rw [hmk, hrd, immJ_encodeJ h]

end Encoded

/-- The record of a well-formed instruction's own word stands for that instruction. -/
theorem toInstr_recordOf_encode {i : Instr} (h : i.WellFormed) : (recordOf i.kind (encode i)).toInstr = i := by
  cases i with
  | lui | auipc => exact toInstr_encodeU (fun _ => rfl) h
  | jal => exact toInstr_encodeJ (fun _ => rfl) h
  | beq | bne | blt | bge | bltu | bgeu => exact toInstr_encodeB (fun _ => rfl) h
  | jalr | lb | lh | lw | lbu | lhu | addi | slti | sltiu | xori | ori | andi =>
    exact toInstr_encodeI (fun _ => rfl) h
  | slli | srli => exact toInstr_encodeI (fun _ => rfl) (fitsShift_funct7 h).2
  | srai => exact toInstr_encodeI (fun _ => rfl) (fitsSrai_funct7 h).2
  | sb | sh | sw => exact toInstr_encodeS (fun _ => rfl) h
  | add | sub | sll | slt | sltu | xor | srl | sra | or | and => exact toInstr_encodeR fun _ => rfl
  | fence | ecall | ebreak => rfl

/-- R72: the word of a well-formed instruction is selected by the row of the instruction's kind. -/
theorem selects_encode {i : Instr} (h : i.WellFormed) : i.kind.row.selects (encode i) = true := by
  cases i with
  | lui => exact Laws.SelectsOwnRow.lui _ _ h
  | auipc => exact Laws.SelectsOwnRow.auipc _ _ h
  | jal => exact Laws.SelectsOwnRow.jal _ _ h
  | jalr => exact Laws.SelectsOwnRow.jalr _ _ _ h
  | beq => exact Laws.SelectsOwnRow.beq _ _ _ h
  | bne => exact Laws.SelectsOwnRow.bne _ _ _ h
  | blt => exact Laws.SelectsOwnRow.blt _ _ _ h
  | bge => exact Laws.SelectsOwnRow.bge _ _ _ h
  | bltu => exact Laws.SelectsOwnRow.bltu _ _ _ h
  | bgeu => exact Laws.SelectsOwnRow.bgeu _ _ _ h
  | lb => exact Laws.SelectsOwnRow.lb _ _ _ h
  | lh => exact Laws.SelectsOwnRow.lh _ _ _ h
  | lw => exact Laws.SelectsOwnRow.lw _ _ _ h
  | lbu => exact Laws.SelectsOwnRow.lbu _ _ _ h
  | lhu => exact Laws.SelectsOwnRow.lhu _ _ _ h
  | sb => exact Laws.SelectsOwnRow.sb _ _ _ h
  | sh => exact Laws.SelectsOwnRow.sh _ _ _ h
  | sw => exact Laws.SelectsOwnRow.sw _ _ _ h
  | addi => exact Laws.SelectsOwnRow.addi _ _ _ h
  | slti => exact Laws.SelectsOwnRow.slti _ _ _ h
  | sltiu => exact Laws.SelectsOwnRow.sltiu _ _ _ h
  | xori => exact Laws.SelectsOwnRow.xori _ _ _ h
  | ori => exact Laws.SelectsOwnRow.ori _ _ _ h
  | andi => exact Laws.SelectsOwnRow.andi _ _ _ h
  | slli => exact Laws.SelectsOwnRow.slli _ _ _ h
  | srli => exact Laws.SelectsOwnRow.srli _ _ _ h
  | srai => exact Laws.SelectsOwnRow.srai _ _ _ h
  | add => exact Laws.SelectsOwnRow.add _ _ _ h
  | sub => exact Laws.SelectsOwnRow.sub _ _ _ h
  | sll => exact Laws.SelectsOwnRow.sll _ _ _ h
  | slt => exact Laws.SelectsOwnRow.slt _ _ _ h
  | sltu => exact Laws.SelectsOwnRow.sltu _ _ _ h
  | xor => exact Laws.SelectsOwnRow.xor _ _ _ h
  | srl => exact Laws.SelectsOwnRow.srl _ _ _ h
  | sra => exact Laws.SelectsOwnRow.sra _ _ _ h
  | or => exact Laws.SelectsOwnRow.or _ _ _ h
  | and => exact Laws.SelectsOwnRow.and _ _ _ h
  | fence => exact Laws.SelectsOwnRow.fence h
  | ecall => exact Laws.SelectsOwnRow.ecall h
  | ebreak => exact Laws.SelectsOwnRow.ebreak h

/-- Settles O1: the word's own row selects it, and its record stands for the instruction. -/
theorem encodedInstructionDecodesBack : Obligations.EncodedInstructionDecodesBack := fun i h => by
  rw [decode_of_selects (selects_encode h), toInstr_recordOf_encode h]

/-! ## Writing a decoded word again -/

/-- The words of ECALL and EBREAK have the columns of their rows. -/
theorem columns_of_fixed_pattern : ∀ k ∈ allKinds, k.row.format = .iFixed →
    k.opcode = k.row.pattern.extractLsb' 0 7 ∧ k.funct3 = k.row.pattern.extractLsb' 12 3 ∧
      k.funct7 = k.row.pattern.extractLsb' 25 7 := by decide

section Decoded

variable {k : Kind} {w : Word}

/-- The row's columns are the fields of every word it selects. -/
theorem fields_of_selects (h : k.row.selects w = true) :
    k.opcode = w.extractLsb' 0 7 ∧ (k.row.funct3.isSome → k.funct3 = w.extractLsb' 12 3) ∧
      (k.row.funct7.isSome → k.funct7 = w.extractLsb' 25 7) := by
  have hfields := (selects_iff k w).mp h
  split at hfields
  case h_1 hfixed =>
    obtain ⟨ho, h3, h7⟩ := columns_of_fixed_pattern k (mem_allKinds k) hfixed
    exact ⟨hfields ▸ ho, fun _ => hfields ▸ h3, fun _ => hfields ▸ h7⟩
  case h_2 =>
    obtain ⟨ho, h3, h7⟩ := hfields
    refine ⟨ho.symm, fun hs => ?_, fun hs => ?_⟩
    · obtain ⟨f, hf⟩ := Option.isSome_iff_exists.mp hs
      exact (Machine.funct3_eq_of_mem hf).trans (h3 f hf).symm
    · obtain ⟨f, hf⟩ := Option.isSome_iff_exists.mp hs
      exact (Machine.funct7_eq_of_mem hf).trans (h7 f hf).symm

/-- The fields of an R-format word, in a row, are the word. -/
theorem encodeR_of_selects (h : k.row.selects w = true) (h3 : k.row.funct3.isSome)
    (h7 : k.row.funct7.isSome) : encodeR k (w.extractLsb' 20 5) (w.extractLsb' 15 5) (w.extractLsb' 7 5) = w := by
  obtain ⟨ho, hf3, hf7⟩ := fields_of_selects h
  rw [encodeR, ho, hf3 h3, hf7 h7, extract_append_extract w 20 7 5, extract_append_extract w 15 12 5,
    extract_append_extract w 12 17 3, extract_append_extract w 7 20 5, extract_append_extract w 0 25 7]
  exact extract_self w

/-- The fields of an I-format word, the top ones as the immediate delivers them, are the word. -/
theorem encodeI_of_selects (h : k.row.selects w = true) (h3 : k.row.funct3.isSome) :
    encodeI k (immI w) (w.extractLsb' 15 5) (w.extractLsb' 7 5) = w := by
  obtain ⟨ho, hf3, -⟩ := fields_of_selects h
  rw [encodeI, immI, extract_sext _ 0 12 (by omega) (by omega), extract_self, ho, hf3 h3,
    extract_append_extract w 15 12 5, extract_append_extract w 12 17 3, extract_append_extract w 7 20 5,
    extract_append_extract w 0 25 7]
  exact extract_self w

theorem encodeS_of_selects (h : k.row.selects w = true) (h3 : k.row.funct3.isSome) :
    encodeS k (immS w) (w.extractLsb' 20 5) (w.extractLsb' 15 5) = w := by
  obtain ⟨ho, hf3, -⟩ := fields_of_selects h
  have hhi : (immS w).extractLsb' 5 7 = w.extractLsb' 25 7 := by
    simp (disch := omega) only [immS, extract_sext, extract_append_high, Nat.reduceSub, extract_self]
  have hlo : (immS w).extractLsb' 0 5 = w.extractLsb' 7 5 := by
    simp (disch := omega) only [immS, extract_sext, extract_append_low, extract_self]
  rw [encodeS, hhi, hlo, ho, hf3 h3, extract_append_extract w 20 7 5, extract_append_extract w 15 12 5,
    extract_append_extract w 12 17 3, extract_append_extract w 7 20 5, extract_append_extract w 0 25 7]
  exact extract_self w

/-- The fields the B-format scatters the immediate over. -/
theorem immB_fields (w : Word) :
    (immB w).extractLsb' 12 1 = w.extractLsb' 31 1 ∧ (immB w).extractLsb' 11 1 = w.extractLsb' 7 1 ∧
      (immB w).extractLsb' 5 6 = w.extractLsb' 25 6 ∧ (immB w).extractLsb' 1 4 = w.extractLsb' 8 4 := by
  unfold immB
  refine ⟨?_, ?_, ?_, ?_⟩ <;>
    simp (disch := omega) only [extract_sext, extract_append_low, extract_append_high, Nat.reduceSub, extract_self]

theorem encodeB_of_selects (h : k.row.selects w = true) (h3 : k.row.funct3.isSome) :
    encodeB k (immB w) (w.extractLsb' 20 5) (w.extractLsb' 15 5) = w := by
  obtain ⟨ho, hf3, -⟩ := fields_of_selects h
  obtain ⟨h12, h11, h10, h4⟩ := immB_fields w
  rw [encodeB, h12, h11, h10, h4, ho, hf3 h3, extract_append_extract w 25 1 6, extract_append_extract w 20 7 5,
    extract_append_extract w 15 12 5, extract_append_extract w 12 17 3, extract_append_extract w 8 20 4,
    extract_append_extract w 7 24 1, extract_append_extract w 0 25 7]
  exact extract_self w

theorem encodeU_of_selects (h : k.row.selects w = true) :
    encodeU k (immU w) (w.extractLsb' 7 5) = w := by
  obtain ⟨ho, -, -⟩ := fields_of_selects h
  rw [encodeU, immU, extract_append_high _ _ _ _ (by omega), extract_self, ho, extract_append_extract w 7 20 5,
    extract_append_extract w 0 25 7]
  exact extract_self w

/-- The fields the J-format scatters the immediate over. -/
theorem immJ_fields (w : Word) :
    (immJ w).extractLsb' 20 1 = w.extractLsb' 31 1 ∧ (immJ w).extractLsb' 1 10 = w.extractLsb' 21 10 ∧
      (immJ w).extractLsb' 11 1 = w.extractLsb' 20 1 ∧ (immJ w).extractLsb' 12 8 = w.extractLsb' 12 8 := by
  unfold immJ
  refine ⟨?_, ?_, ?_, ?_⟩ <;>
    simp (disch := omega) only [extract_sext, extract_append_low, extract_append_high, Nat.reduceSub, extract_self]

theorem encodeJ_of_selects (h : k.row.selects w = true) :
    encodeJ k (immJ w) (w.extractLsb' 7 5) = w := by
  obtain ⟨ho, -, -⟩ := fields_of_selects h
  obtain ⟨h20, h10, h11, h19⟩ := immJ_fields w
  rw [encodeJ, h20, h10, h11, h19, ho, extract_append_extract w 21 1 10, extract_append_extract w 20 11 1,
    extract_append_extract w 12 12 8, extract_append_extract w 7 20 5, extract_append_extract w 0 25 7]
  exact extract_self w

/-- Writing the instruction of the row that selects a word gives the word, FENCE's ignored fields apart. -/
theorem encode_toInstr_recordOf (h : k.row.selects w = true) (hne : k ≠ .FENCE) :
    encode (recordOf k w).toInstr = w := by
  cases k with
  | LUI | AUIPC => exact encodeU_of_selects h
  | JAL => exact encodeJ_of_selects h
  | BEQ | BNE | BLT | BGE | BLTU | BGEU => exact encodeB_of_selects h rfl
  | JALR | LB | LH | LW | LBU | LHU | ADDI | SLTI | SLTIU | XORI | ORI | ANDI | SLLI | SRLI | SRAI =>
    exact encodeI_of_selects h rfl
  | SB | SH | SW => exact encodeS_of_selects h rfl
  | ADD | SUB | SLL | SLT | SLTU | XOR | SRL | SRA | OR | AND => exact encodeR_of_selects h rfl rfl
  | FENCE => exact absurd rfl hne
  | ECALL | EBREAK => exact ((selects_iff _ w).mp h).symm

/-! ## What the decoder delivers is well formed -/

theorem fits12_immI (w : Word) : fits12 (immI w) = true := fits12_sext _

theorem fits12_immS (w : Word) : fits12 (immS w) = true := fits12_sext _

theorem fitsB_immB (w : Word) : fitsB (immB w) = true := fitsB_sext _

theorem fitsU_immU (w : Word) : fitsU (immU w) = true := fitsU_append _

theorem fitsJ_immJ (w : Word) : fitsJ (immJ w) = true := fitsJ_sext _

/-- A 12-bit shift immediate fits by its funct7, whatever the distance (R71). -/
theorem fits_shift_of_funct7 (v : BitVec 5) :
    fitsShift (sext 12 (0b0000000#7 ++ v)) = true ∧ fitsSrai (sext 12 (0b0100000#7 ++ v)) = true := by
  revert v; decide

/-- The immediate of a shift is its funct7 over its distance. -/
theorem immI_eq_funct7_append (h : k.row.selects w = true) (h7 : k.row.funct7.isSome) :
    immI w = sext 12 (k.funct7 ++ w.extractLsb' 20 5) := by
  obtain ⟨-, -, hf7⟩ := fields_of_selects h
  rw [immI, hf7 h7, extract_append_extract w 20 7 5]

/-- The instruction of the row that selects a word is well formed. -/
theorem wellFormed_toInstr_recordOf (h : k.row.selects w = true) : (recordOf k w).toInstr.WellFormed := by
  cases k with
  | LUI | AUIPC => exact fitsU_immU w
  | JAL => exact fitsJ_immJ w
  | BEQ | BNE | BLT | BGE | BLTU | BGEU => exact fitsB_immB w
  | JALR | LB | LH | LW | LBU | LHU | ADDI | SLTI | SLTIU | XORI | ORI | ANDI => exact fits12_immI w
  | SLLI | SRLI =>
    exact (congrArg fitsShift (immI_eq_funct7_append h rfl)).trans (fits_shift_of_funct7 _).1
  | SRAI => exact (congrArg fitsSrai (immI_eq_funct7_append h rfl)).trans (fits_shift_of_funct7 _).2
  | SB | SH | SW => exact fits12_immS w
  | ADD | SUB | SLL | SLT | SLTU | XOR | SRL | SRA | OR | AND | FENCE | ECALL | EBREAK => rfl

end Decoded

/-- Every instruction the decoder delivers is well formed. -/
theorem wellFormed_of_decode {w : Word} {i : Instr} (h : decode w = .ok i) : i.WellFormed := by
  obtain ⟨hsel, hi⟩ := selects_of_decode h
  rw [hi]
  exact wellFormed_toInstr_recordOf hsel

/-- Settles O2: the decoded instruction is the record of the one row that selects the word. -/
theorem decodedWordReencodes : Obligations.DecodedWordReencodes := by
  intro w i h
  refine ⟨wellFormed_of_decode h, fun hne => ?_⟩
  obtain ⟨hsel, hi⟩ := selects_of_decode h
  have hkind : i.kind ≠ .FENCE := fun hk => hne (by rw [hi, hk]; rfl)
  rw [hi]
  exact encode_toInstr_recordOf hsel hkind

end Sys2Proof
end

section
/-! Proofs about the decoder (`30_encoding.md` R66 to R78): the one row that selects a word, the words no row selects,
found by the columns of the rows with their opcode, and the numbers the immediates are. -/

namespace Sys2Proof

/-! ## The row a word matches -/

/-- R72: a row selects the words its match column equals under its mask. -/
theorem selects_iff_masked (k : Kind) (w : Word) : k.row.selects w = true ↔ w &&& k.row.mask = k.row.pattern :=
  beq_iff_eq

theorem decodeRecord_of_none_selects {w : Word} (h : ∀ k : Kind, ¬ k.row.selects w = true) :
    decodeRecord w = .error (.unrecognizedEncoding w) := by
  have hnone : allKinds.find? (fun k => k.row.selects w) = none := List.find?_eq_none.mpr fun k _ => h k
  rw [decodeRecord, hnone]

/-- R77: a word that matches no row is rejected. -/
theorem decode_of_none_masked {w : Word} (h : ∀ k : Kind, w &&& k.row.mask ≠ k.row.pattern) :
    decode w = .error (.unrecognizedEncoding w) :=
  decode_of_none_selects fun k hk => h k ((selects_iff_masked k w).mp hk)

/-- Settles O3. -/
theorem decoderTakesTheOneMatchingRow : Obligations.DecoderTakesTheOneMatchingRow :=
  ⟨fun w k q hk hq => selects_unique ((selects_iff_masked k w).mpr hk) ((selects_iff_masked q w).mpr hq),
    fun w k hk => decodeRecord_of_selects ((selects_iff_masked k w).mpr hk),
    fun w hw => ⟨_, decodeRecord_of_none_selects fun k hk => hw k ((selects_iff_masked k w).mp hk)⟩⟩

/-! ## Words of FENCE, ECALL and EBREAK -/

/-- R75: FENCE's row fixes opcode and funct3 alone. -/
theorem decode_fence_iff (w : Word) :
    decode w = .ok .fence ↔ w.extractLsb' 0 7 = 0b0001111#7 ∧ w.extractLsb' 12 3 = 0b000#3 := by
  constructor
  · intro h
    obtain ⟨ho, h3, -⟩ := fields_of_selects (selects_of_decode h).1
    exact ⟨ho.symm, (h3 rfl).symm⟩
  · rintro ⟨ho, h3⟩
    exact decode_of_fields .FENCE w ⟨ho, by rintro _ ⟨⟩; exact h3, by rintro _ ⟨⟩⟩

/-- R76: a row that fixes the whole word has that word alone. -/
theorem decode_iff_of_fixed {i : Instr} (hf : i.kind.row.format = .iFixed)
    (hi : (recordOf i.kind i.kind.row.pattern).toInstr = i) (w : Word) :
    decode w = .ok i ↔ w = i.kind.row.pattern := by
  have hsel := selects_iff i.kind w
  rw [hf] at hsel
  constructor
  · exact fun h => hsel.mp (selects_of_decode h).1
  · intro h
    rw [decode_of_selects (hsel.mpr h), h, hi]

theorem decode_ecall_iff (w : Word) : decode w = .ok .ecall ↔ w = 0x00000073 :=
  decode_iff_of_fixed (i := .ecall) rfl rfl w

theorem decode_ebreak_iff (w : Word) : decode w = .ok .ebreak ↔ w = 0x00100073 :=
  decode_iff_of_fixed (i := .ebreak) rfl rfl w

/-! ## Words that are rejected by their columns -/

section

variable {w : Word}

/-- A word whose opcode is not in the opcode column is rejected. -/
theorem rejected_of_opcode {p : BitVec 7 → Prop} (hrows : ∀ k ∈ allKinds, p k.opcode)
    (h : ¬ p (w.extractLsb' 0 7)) : decode w = .error (.unrecognizedEncoding w) :=
  decode_of_none_selects fun k hk => by
    obtain ⟨ho, -, -⟩ := fields_of_selects hk
    exact h (ho ▸ hrows k (mem_allKinds k))

/-- A word whose funct7 no row with its opcode and funct3 has is rejected; `p` says which funct3 are meant. -/
theorem rejected_of_funct7 {op : BitVec 7} {p : BitVec 3 → Prop} {bad : BitVec 3 → BitVec 7 → Prop}
    (hrows : ∀ k ∈ allKinds, k.opcode = op →
      k.row.funct3.isSome ∧ (p k.funct3 → k.row.funct7.isSome ∧ ¬ bad k.funct3 k.funct7))
    (ho : w.extractLsb' 0 7 = op) (hp : p (w.extractLsb' 12 3))
    (hbad : bad (w.extractLsb' 12 3) (w.extractLsb' 25 7)) : decode w = .error (.unrecognizedEncoding w) :=
  decode_of_none_selects fun k hk => by
    obtain ⟨hko, hk3, hk7⟩ := fields_of_selects hk
    obtain ⟨h3, hrow⟩ := hrows k (mem_allKinds k) (hko.trans ho)
    rw [hk3 h3] at hrow
    obtain ⟨h7, hgood⟩ := hrow hp
    rw [hk7 h7] at hgood
    exact hgood hbad

/-- A word whose funct3 no row with its opcode has is rejected. -/
theorem rejected_of_funct3 {op : BitVec 7} {bad : BitVec 3 → Prop}
    (hrows : ∀ k ∈ allKinds, k.opcode = op → k.row.funct3.isSome ∧ ¬ bad k.funct3)
    (ho : w.extractLsb' 0 7 = op) (hbad : bad (w.extractLsb' 12 3)) : decode w = .error (.unrecognizedEncoding w) :=
  rejected_of_funct7 (bad := fun f _ => bad f)
    (fun k hk hop => ⟨(hrows k hk hop).1, fun hp => absurd hp (hrows k hk hop).2⟩) ho hbad hbad

end

/-- R76: the rows with opcode 1110011 are those of ECALL and EBREAK. -/
theorem decode_system_error {w : Word} (ho : w.extractLsb' 0 7 = 0b1110011#7) (hc : w ≠ 0x00000073)
    (hb : w ≠ 0x00100073) : decode w = .error (.unrecognizedEncoding w) := by
  have hrows : ∀ k ∈ allKinds, k.opcode = 0b1110011#7 → k = .ECALL ∨ k = .EBREAK := by decide
  refine decode_of_none_selects fun k hk => ?_
  obtain ⟨hko, -, -⟩ := fields_of_selects hk
  obtain rfl | rfl := hrows k (mem_allKinds k) (hko.trans ho)
  · exact hc ((selects_iff .ECALL w).mp hk)
  · exact hb ((selects_iff .EBREAK w).mp hk)

/-- Settles O5. -/
theorem ecallAndEbreakAreSingleWords : Obligations.EcallAndEbreakAreSingleWords :=
  ⟨decode_ecall_iff, decode_ebreak_iff, fun _ => decode_system_error⟩

/-- R77: every opcode of the map ends in 11. -/
theorem rejected_of_low_bits {w : Word} (h : w.extractLsb' 0 2 ≠ 0b11#2) :
    decode w = .error (.unrecognizedEncoding w) :=
  rejected_of_opcode (p := fun op => op.extractLsb' 0 2 = 0b11#2) (by decide)
    (by rwa [extract_extract w 0 7 0 2 (by omega)])

/-- R78, line by line of its table: no row with the line's opcode has the line's funct3 or funct7.

Settles O7. -/
theorem illegalFieldsInsideMajorOpcodes : Obligations.IllegalFieldsInsideMajorOpcodes := by
  rintro w (⟨ho, h3⟩ | ⟨ho, h3⟩ | ⟨ho, h3⟩ | ⟨ho, h3⟩ | ⟨ho, h3, h7⟩ |
    ⟨ho, h3, h7⟩ | ⟨ho, h7⟩ | ⟨ho, h3⟩ | ⟨ho, hc, hb⟩)
  · exact rejected_of_funct3 (bad := (· ∈ [0b011#3, 0b110#3, 0b111#3])) (by decide) ho h3
  · exact rejected_of_funct3 (bad := (· ∈ [0b011#3, 0b100#3, 0b101#3, 0b110#3, 0b111#3])) (by decide) ho h3
  · exact rejected_of_funct3 (bad := (· ∈ [0b010#3, 0b011#3])) (by decide) ho h3
  · exact rejected_of_funct3 (bad := (· ≠ 0b000#3)) (by decide) ho h3
  · exact rejected_of_funct7 (p := (· = 0b001#3)) (bad := fun _ f => f ≠ 0b0000000#7) (by decide) ho h3 h7
  · exact rejected_of_funct7 (p := (· = 0b101#3)) (bad := fun _ f => f ∉ [0b0000000#7, 0b0100000#7])
      (by decide) ho h3 h7
  · exact rejected_of_funct7 (p := fun _ => True)
      (bad := fun f3 f7 => f7 ≠ 0b0000000#7 ∧ (f7, f3) ∉ [(0b0100000#7, 0b000#3), (0b0100000#7, 0b101#3)])
      (by decide) ho trivial h7
  · exact rejected_of_funct3 (bad := (· ≠ 0b000#3)) (by decide) ho h3
  · exact decode_system_error ho hc hb

/-! ## The numbers the immediates are -/

theorem toInt_sext {n : Nat} (v : BitVec n) (hn : n ≤ 32) : (sext n v).toInt = v.toInt :=
  BitVec.toInt_signExtend_of_le hn

/-- A zero bit below doubles the number. -/
theorem toInt_append_zero_bit {n : Nat} (v : BitVec n) (hn : n ≠ 0) : (v ++ 0#1).toInt = 2 * v.toInt := by
  rw [BitVec.toInt_append]
  simp [hn]

/-- R69: twenty bits above twelve zero bits. -/
theorem toNat_immU (w : Word) : (immU w).toNat = 4096 * (w.extractLsb' 12 20).toNat := by
  rw [immU, BitVec.toNat_append, Nat.shiftLeft_eq]
  simp [Nat.mul_comm]

/-- Settles O8: the record of the row the word matches, format by format. -/
theorem immediatesAreAssembledPerFormat : Obligations.ImmediatesAreAssembledPerFormat := by
  intro w k hk
  refine ⟨_, decodeRecord_of_selects ((selects_iff_masked k w).mpr hk), rfl, ?_⟩
  unfold recordOf
  cases k.row.format with
  | i | iShift => exact toInt_sext _ (by omega)
  | s => exact toInt_sext _ (by omega)
  | b => exact (toInt_sext _ (by omega)).trans (toInt_append_zero_bit _ (by omega))
  | u => exact toNat_immU w
  | j => exact (toInt_sext _ (by omega)).trans (toInt_append_zero_bit _ (by omega))
  | r | iIgnored | iFixed => rfl

/-- Settles O9: nine words of the spec's vectors, each run through the decoder. -/
theorem specWordsDecode : Obligations.SpecWordsDecode :=
  ⟨by decide, by decide, by decide, by decide, by decide, by decide, by decide, by decide, by decide⟩

end Sys2Proof
end

section
/-! Proofs about two kinds of words in a running core: one that is no instruction (`30_encoding.md` R77), and FENCE
(`47_fence_system.md` R200). -/

namespace Sys2Proof.Machine

/-! ## Fetching a word that is no instruction -/

/-- Settles O6: such a word is rejected by its columns or by no row selecting it, and the step that fetches it takes the
trap with the state the fetch left. -/
theorem unlistedWordsTrap : Obligations.UnlistedWordsTrap := by
  refine ⟨fun _ => decode_of_none_masked, fun _ => rejected_of_low_bits, by decide, by decide,
    fun _ => rejected_of_opcode (p := (· ∈ _)) (by decide), fun s hr hacc hw => ?_⟩
  exact ⟨_, step_undecoded hr hacc (decode_of_none_masked hw), rfl, busRead_cells _ s, busRead_pc _ s,
    fun a => congrArg (Memory.readByte · a) (busRead_mem _ s)⟩

/-! ## FENCE -/

theorem continues_retire (s : State) : Continues (.next (retire s)) s (s.pc + 4) :=
  ⟨_, rfl, rfl, fun i => readReg_retire i s, fun _ => rfl, ⟨rfl, rfl, rfl, rfl⟩, rfl, rfl⟩

/-- Settles O4. -/
theorem fenceIgnoresItsFields : Obligations.FenceIgnoresItsFields :=
  ⟨decode_fence_iff, (decode_fence_iff _).mpr (by decide), (decode_fence_iff _).mpr (by decide), continues_retire⟩

/-- Writing back the zero that raw cell 0 holds changes nothing. -/
theorem writeReg_zero_of_cell {s : State} (h : s.cells[0] = 0) : writeReg 0 0 s = s := by
  have hcells : s.cells.set 0 0 = s.cells := by
    rw [← h]
    exact Vector.set_getElem_self _
  exact congrArg (fun c => { s with cells := c }) hcells

/-- Settles O52: ADDI to register 0 of a sum of zeros writes back the zero that is there. -/
theorem fenceIsANoOp : Obligations.FenceIsANoOp := by
  refine ⟨fun w ho h3 => (decode_fence_iff w).mpr ⟨ho, h3⟩, continues_retire, fun s h => ?_⟩
  have haddi : exec (.addi 0 0 0) s = .next (retire (writeReg 0 0 s)) := rfl
  rw [haddi, writeReg_zero_of_cell h]
  rfl

end Sys2Proof.Machine
end

section
/-! Proofs about the remaining arithmetic (`41_alu.md` R117 to R119, `30_encoding.md` R79, R83) and JALR (`44_jump.md`
R167). -/

namespace Sys2Proof.Machine

/-! ## The immediate shifts -/

/-- A shift row has every word with its opcode, funct3 and funct7 columns. -/
theorem decodesShift_of_row {k : Kind} {mk : RegIdx → RegIdx → Word → Instr} (hf : k.row.format = .iShift)
    (hmk : ∀ w, (recordOf k w).toInstr = mk (w.extractLsb' 7 5) (w.extractLsb' 15 5) (immI w)) :
    DecodesShift k.opcode k.funct3 k.funct7 mk := by
  intro w ho h3 h7
  rw [← immI, ← hmk]
  apply decode_of_fields
  rw [hf]
  exact ⟨ho, fun _ h => h3.trans (funct3_eq_of_mem h), fun _ h => h7.trans (funct7_eq_of_mem h)⟩

/-- Settles O37: the shift distance is the low five bits of the immediate, a number modulo 32. -/
theorem shiftImmediates : Obligations.ShiftImmediates :=
  ⟨decodesShift_of_row (k := .SLLI) rfl fun _ => rfl, decodesShift_of_row (k := .SRLI) rfl fun _ => rfl,
    decodesShift_of_row (k := .SRAI) rfl fun _ => rfl,
    fun _ ho h3 h7 =>
      ⟨_, rejected_of_funct7 (p := (· = 0b001#3)) (bad := fun _ f => f ≠ 0b0000000#7) (by decide) ho h3 h7⟩,
    fun rd _ _ _ =>
      ⟨computes_regImm (shiftLeft_number _ _) rd,
        computes_regImm (shiftRightLogical_number _ _) rd,
        computes_regImm (shiftRightArith_number _ _) rd⟩⟩

/-! ## Results written to register 0, and `li` -/

/-- R79: a result for register 0 is no result. -/
theorem continues_result_zero (v : Word) (s : State) : Continues (result 0 v s) s (s.pc + 4) :=
  (computes_result 0 v s).continues_of_zero

/-- Settles O40: each of the listed instructions is one result, written to register 0. -/
theorem hintsAreNoOps : Obligations.HintsAreNoOps := by
  intro s rs1 rs2 imm i hi
  fin_cases hi <;> exact continues_result_zero _ s

/-- A 12-bit value sign-extended: below 2^11 itself, from there on 2^12 less, modulo 2^32. -/
theorem toNat_sext12 (v : BitVec 12) :
    (sext 12 v).toNat = if v.toNat < 2048 then v.toNat else v.toNat + (2 ^ 32 - 4096) := by
  have hmsb : v.msb = decide (2048 ≤ v.toNat) := BitVec.msb_eq_decide v
  have hlt := v.isLt
  rw [sext, BitVec.toNat_signExtend, hmsb, BitVec.toNat_setWidth]
  simp only [decide_eq_true_eq]
  split <;> split <;> omega

/-- R83: adding `0x800` first makes up for the borrow of the sign-extended low part. -/
theorem upper_add_lower (v : Word) :
    ((v + 0x800).extractLsb' 12 20 ++ 0#12 : Word) + sext 12 (v.extractLsb' 0 12) = v := by
  apply BitVec.eq_of_toNat_eq
  have hupper : ((v + 0x800).extractLsb' 12 20 ++ 0#12 : Word).toNat = 4096 * ((v + 0x800).extractLsb' 12 20).toNat :=
    toNat_immU (v + 0x800)
  have hround : (0x800 : Word).toNat = 2048 := rfl
  rw [BitVec.toNat_add, hupper, toNat_sext12, BitVec.extractLsb'_toNat, extractLow_toNat, BitVec.toNat_add,
    Nat.shiftRight_eq_div_pow, hround]
  split <;> omega

/-- Settles O41: LUI leaves the upper part in `rd`, and ADDI adds the lower part to it. -/
theorem loadImmediateExpansion : Obligations.LoadImmediateExpansion := by
  intro rd imm s hrd
  obtain ⟨t, ht, htregs, htpc, -⟩ := computes_lui rd ((imm + 0x800).extractLsb' 12 20 ++ 0#12) s
  obtain ⟨u, hu, huregs, hupc, -⟩ := computes_result rd (readReg rd t + sext 12 (imm.extractLsb' 0 12)) t
  refine ⟨t, u, ht, hu, ?_, ?_⟩
  · rw [huregs, if_pos ⟨rfl, hrd⟩, htregs, if_pos ⟨rfl, hrd⟩, upper_add_lower]
  · rw [hupc, htpc, BitVec.add_assoc]
    rfl

/-! ## JALR -/

/-- R167: the mask clears bit 0 and no other. -/
theorem getLsbD_clear_bit0 (v : Word) (i : Nat) :
    (v &&& 0xFFFFFFFE).getLsbD i = (decide (0 < i) && v.getLsbD i) := by
  have hmask : ∀ j < 32, (0xFFFFFFFE : Word).getLsbD j = decide (0 < j) := by decide
  rw [BitVec.getLsbD_and, Bool.and_comm]
  by_cases hi : i < 32
  · rw [hmask i hi]
  · rw [BitVec.getLsbD_of_ge v i (by omega), Bool.and_false, Bool.and_false]

theorem computes_jalr (rd rs1 : RegIdx) (imm : Word) (s : State) :
    Computes (exec (.jalr rd rs1 imm) s) s rd (s.pc + 4) ((readReg rs1 s + imm) &&& 0xFFFFFFFE) :=
  computes_linkAndJump rd (indirectTarget rs1 imm s) s

/-- Settles O44. -/
theorem jumpAndLinkRegister : Obligations.JumpAndLinkRegister := by
  refine ⟨decodesI_of_row (k := .JALR) rfl rfl fun _ => rfl, fun rd rs1 imm s =>
    ⟨_, computes_jalr rd rs1 imm s, ?_, fun i hi => ?_⟩⟩
  · rw [getLsbD_clear_bit0, decide_eq_false (Nat.lt_irrefl 0), Bool.false_and]
  · rw [getLsbD_clear_bit0, decide_eq_true hi, Bool.true_and]

end Sys2Proof.Machine
end

section
/-! Proofs about the memory port and the accesses (`20_memory.md` R31 to R47, R52), and about the loads and stores made
of them (`45_load.md`, `46_store.md`). -/

namespace Sys2Proof.Machine

/-! ## The port and the checked access -/

/-- R46: a read transaction changes the bus and the clock alone. -/
theorem busRead_frame (a : Word) (s : State) :
    AfterRead a s (busRead a s) ∧ (busRead a s).mem = s.mem ∧ (busRead a s).cells = s.cells ∧
      (busRead a s).pc = s.pc ∧ SameContext s (busRead a s) :=
  ⟨busRead_afterRead a s, busRead_mem a s, busRead_cells a s, busRead_pc a s, busRead_run a s, busRead_output a s,
    busRead_hostState a s, busRead_params a s⟩

/-- The state after a word write: the word stored, then the bus transaction. -/
def afterWordStore (a w : Word) (s : State) : State :=
  busWrite a w { s with mem := Memory.writeWord s.mem a.toNat w }

@[simp] theorem afterWordStore_mem (a w : Word) (s : State) :
    (afterWordStore a w s).mem = Memory.writeWord s.mem a.toNat w := busWrite_mem a w _
@[simp] theorem afterWordStore_cells (a w : Word) (s : State) : (afterWordStore a w s).cells = s.cells :=
  busWrite_cells a w _
@[simp] theorem afterWordStore_pc (a w : Word) (s : State) : (afterWordStore a w s).pc = s.pc := busWrite_pc a w _
@[simp] theorem afterWordStore_params (a w : Word) (s : State) : (afterWordStore a w s).params = s.params :=
  busWrite_params a w _

theorem afterWordStore_context (a w : Word) (s : State) : SameContext s (afterWordStore a w s) :=
  ⟨busWrite_run a w _, busWrite_output a w _, busWrite_hostState a w _, busWrite_params a w _⟩

theorem afterWordStore_afterWrite (a w : Word) (s : State) : AfterWrite 0 a w s (afterWordStore a w s) :=
  busWrite_afterWrite a w { s with mem := Memory.writeWord s.mem a.toNat w }

/-- R46: the write transaction is its driven half, then write-enable lowered. -/
theorem afterWordStore_hardware {s : State} (h : s.params.realization = .hardware) (a w : Word) :
    afterWordStore a w s =
      releaseWrite (tick 1 (driveWrite a w { s with mem := Memory.writeWord s.mem a.toNat w })) := by
  simp [afterWordStore, busWrite, h]

/-- Settles O30. -/
theorem portTransactionsDriveTheBus : Obligations.PortTransactionsDriveTheBus := by
  intro a w s ha
  refine ⟨⟨_, portRead_ok ha, busRead_frame a s⟩, _, portWrite_ok ha w, afterWordStore_afterWrite a w s,
    afterWordStore_cells a w s, afterWordStore_pc a w s, afterWordStore_context a w s, fun hr => ?_⟩
  exact ⟨_, rfl, rfl, rfl, afterWordStore_hardware hr a w, afterWordStore_hardware hr a w⟩

/-- Settles O31. -/
theorem wordAccessChecksAlignmentThenRange : Obligations.WordAccessChecksAlignmentThenRange :=
  ⟨fun _ _ ha => ⟨wordRead_misaligned ha, wordWrite_misaligned ha⟩,
    fun _ _ ha hm => ⟨wordRead_outOfRange ha hm, wordWrite_outOfRange ha hm⟩,
    fun _ _ ha hm => ⟨(wordRead_ok ⟨ha, hm⟩).trans (portRead_ok ⟨ha, hm⟩).symm, fun w =>
      (wordWrite_ok ⟨ha, hm⟩ w).trans (portWrite_ok ⟨ha, hm⟩ w).symm⟩⟩

/-! ## Loads -/

/-- R7: the extensions as numbers. -/
theorem sext_number {n : Nat} (v : BitVec n) : sext n v = BitVec.ofInt 32 v.toInt := rfl

theorem zext_number {n : Nat} (v : BitVec n) : zext n v = BitVec.ofNat 32 v.toNat :=
  BitVec.eq_of_toNat_eq (by simp [zext])

/-- A load whose access answers. -/
theorem loads_of_ok {n : Nat} {r : Access (BitVec n)} {v : BitVec n} {b ea x : Word} {s : State}
    (hr : r = .ok v (busRead b s)) (hb : b.extractLsb' 2 30 = ea.extractLsb' 2 30) {extend : BitVec n → Word}
    (hx : extend v = x) (rd : RegIdx) : Loads (loadInto rd r extend s) s ea rd x := by
  obtain ⟨hread, hmem, -, hpc, hctx⟩ := busRead_frame b s
  subst hr hx
  refine ⟨_, rfl, fun i => ?_, congrArg (· + 4) hpc, fun a => congrArg (Memory.readByte · a) hmem, hctx,
    hread.congr rfl rfl hb⟩
  rw [readReg_retire, readReg_writeReg, readReg_busRead]

/-- A load whose access traps. -/
theorem traps_load_of_trap {n : Nat} {r : Access (BitVec n)} {tr : Trap} (hr : r = .trap tr) (rd : RegIdx)
    (extend : BitVec n → Word) (s : State) : Traps (loadInto rd r extend s) s tr := by
  subst hr
  rfl

/-- Settles O46: LB and LBU differ in how the byte read is extended. -/
theorem byteLoads : Obligations.ByteLoads := by
  refine ⟨decodesI_of_row (k := .LB) rfl rfl fun _ => rfl, decodesI_of_row (k := .LBU) rfl rfl fun _ => rfl,
    fun rd rs1 imm s => ⟨fun hm => ?_, fun hm => ?_⟩⟩
  · exact ⟨loads_of_ok (memReadByte_ok hm) (wordAddr_busAddr _) (sext_number _) rd,
      loads_of_ok (memReadByte_ok hm) (wordAddr_busAddr _) (zext_number _) rd⟩
  · exact ⟨traps_load_of_trap (memReadByte_outOfRange hm) rd (sext 8) s,
      traps_load_of_trap (memReadByte_outOfRange hm) rd (zext 8) s⟩

/-- Settles O47: LH and LHU differ in how the halfword read is extended. -/
theorem halfwordLoads : Obligations.HalfwordLoads := by
  refine ⟨decodesI_of_row (k := .LH) rfl rfl fun _ => rfl, decodesI_of_row (k := .LHU) rfl rfl fun _ => rfl,
    fun rd rs1 imm s => ⟨fun he hm => ?_, fun he => ?_, fun he hm => ?_⟩⟩
  · exact ⟨loads_of_ok (memReadHalf_ok he hm) (wordAddr_busAddr _) (sext_number _) rd,
      loads_of_ok (memReadHalf_ok he hm) (wordAddr_busAddr _) (zext_number _) rd⟩
  · exact ⟨traps_load_of_trap (memReadHalf_misaligned he) rd (sext 16) s,
      traps_load_of_trap (memReadHalf_misaligned he) rd (zext 16) s⟩
  · exact ⟨traps_load_of_trap (memReadHalf_outOfRange he hm) rd (sext 16) s,
      traps_load_of_trap (memReadHalf_outOfRange he hm) rd (zext 16) s⟩

/-- Settles O48. -/
theorem wordLoads : Obligations.WordLoads :=
  ⟨decodesI_of_row (k := .LW) rfl rfl fun _ => rfl, fun rd _ _ s =>
    ⟨fun hacc => loads_of_ok (wordRead_ok hacc) (extend := id) rfl rfl rd,
      fun ha => traps_load_of_trap (wordRead_misaligned ha) rd id s,
      fun ha hm => traps_load_of_trap (wordRead_outOfRange ha hm) rd id s⟩⟩

/-! ## Stores -/

/-- An S-format row without a funct7 column has every word with its opcode and funct3 columns. -/
theorem decodesS_of_row {k : Kind} {mk : RegIdx → RegIdx → Word → Instr} (hf : k.row.format = .s)
    (hnone : k.row.funct7 = none)
    (hmk : ∀ w, (recordOf k w).toInstr = mk (w.extractLsb' 15 5) (w.extractLsb' 20 5) (immS w)) :
    DecodesS k.opcode k.funct3 mk := by
  intro w ho h3
  rw [← immS, ← hmk]
  apply decode_of_fields
  rw [hf, hnone]
  exact ⟨ho, fun _ h => h3.trans (funct3_eq_of_mem h), by simp⟩

theorem traps_store_of_trap {r : Access Unit} {tr : Trap} (hr : r = .trap tr) (s : State) :
    Traps (storeBy r s) s tr := by
  subst hr
  rfl

/-- A sub-word store whose written word has the value's lanes from the address up and the old ones elsewhere stores the
value's bytes and nothing else. -/
theorem stores_afterSubwordStore {n : Nat} {ea v w : Word} {s : State} (hm : Memory.wf s.mem)
    (hn : ea.toNat % 4 + n ≤ 4)
    (hw : ∀ j < 4, byteLane w j = if ea.toNat % 4 ≤ j ∧ j < ea.toNat % 4 + n then byteLane v (j - ea.toNat % 4)
      else byteLane (containingWord ea s) j) : Stores n ea v s (afterSubwordStore ea w s) := by
  intro a
  rw [afterSubwordStore_mem, Memory.readByte_writeWord hm]
  by_cases hin : ea.toNat - ea.toNat % 4 ≤ a ∧ a < ea.toNat - ea.toNat % 4 + 4
  · obtain ⟨j, hj⟩ := Nat.exists_eq_add_of_le hin.1
    have hj4 : j < 4 := by omega
    have hold : byteLane (containingWord ea s) j = Memory.readByte s.mem a := by
      rw [hj, containingWord, Memory.readByte_eq_byteLane _ _ _ hj4]
    rw [if_pos hin, show a - (ea.toNat - ea.toNat % 4) = j by omega, hw j hj4, hold]
    by_cases hlane : ea.toNat % 4 ≤ j ∧ j < ea.toNat % 4 + n
    · rw [if_pos hlane, if_pos (by omega), show a - ea.toNat = j - ea.toNat % 4 by omega]
    · rw [if_neg hlane, if_neg (by omega)]
  · rw [if_neg hin, if_neg (by omega)]

theorem afterSubwordStore_context (a w : Word) (s : State) : SameContext s (afterSubwordStore a w s) := by
  simp [SameContext]

/-- A store whose access answers a sub-word store. -/
theorem storesTo_of_subword {r : Access Unit} {n : Nat} {ea v w : Word} {s : State}
    (hr : r = .ok () (afterSubwordStore ea w s)) (hm : Memory.wf s.mem)
    (hstores : Stores n ea v s (afterSubwordStore ea w s)) : StoresTo (storeBy r s) s n 1 ea v := by
  subst hr
  refine ⟨_, rfl, congrArg (· + 4) (afterSubwordStore_pc ea w s), hstores,
    readReg_congr (afterSubwordStore_cells ea w s), afterSubwordStore_context ea w s, ?_⟩
  have hword : containingWord ea (retire (afterSubwordStore ea w s)) = w := containingWord_afterSubwordStore hm
  change AfterWrite 1 ea (containingWord ea (retire (afterSubwordStore ea w s))) s _
  rw [hword]
  exact afterSubwordStore_afterWrite ea w s

/-- R41: the containing word with the value's low byte in the address's lane. -/
def wordWithByte (ea v : Word) (s : State) : Word :=
  replaceBits (containingWord ea s) 0x000000FF (zext 8 (v.extractLsb' 0 8)) (8 * (ea.toNat % 4))

/-- R40: the containing word with the value's low halfword in the address's lanes. -/
def wordWithHalf (ea v : Word) (s : State) : Word :=
  replaceBits (containingWord ea s) 0x0000FFFF (zext 16 (v.extractLsb' 0 16)) (8 * (ea.toNat % 4))

theorem stores_byte {ea : Word} {s : State} (hm : Memory.wf s.mem) (v : Word) :
    Stores 1 ea v s (afterSubwordStore ea (wordWithByte ea v s) s) := by
  refine stores_afterSubwordStore hm (by omega) fun j hj => ?_
  rw [wordWithByte, byteLane_replaceByte _ _ _ _ (by omega) hj]
  by_cases h : j = ea.toNat % 4
  · rw [if_pos h, if_pos (by omega), h, Nat.sub_self]
  · rw [if_neg h, if_neg (by omega)]

theorem stores_half {ea : Word} {s : State} (hm : Memory.wf s.mem) (he : ea.toNat % 2 = 0) (v : Word) :
    Stores 2 ea v s (afterSubwordStore ea (wordWithHalf ea v s) s) :=
  stores_afterSubwordStore hm (by omega) fun j hj => byteLane_replaceHalf _ _ _ j hj

theorem stores_word {ea : Word} {s : State} (hm : Memory.wf s.mem) (v : Word) :
    Stores 4 ea v s (afterWordStore ea v s) := fun a => by
  rw [afterWordStore_mem, Memory.readByte_writeWord hm]

/-- R191: SB in range writes back the containing word with the byte in its lane. -/
theorem exec_sb_ok {rs1 rs2 : RegIdx} {imm : Word} {s : State} (h : InMemory (effectiveAddress rs1 imm s) s) :
    exec (.sb rs1 rs2 imm) s = .next (retire (afterSubwordStore (effectiveAddress rs1 imm s)
      (wordWithByte (effectiveAddress rs1 imm s) (readReg rs2 s) s) s)) := by
  rw [exec, execSb, storeBy, memWriteByte_ok h, Access.conclude, wordWithByte]

/-- R192: SH in range does so with the halfword. -/
theorem exec_sh_ok {rs1 rs2 : RegIdx} {imm : Word} {s : State} (he : (effectiveAddress rs1 imm s).toNat % 2 = 0)
    (h : InMemory (effectiveAddress rs1 imm s) s) :
    exec (.sh rs1 rs2 imm) s = .next (retire (afterSubwordStore (effectiveAddress rs1 imm s)
      (wordWithHalf (effectiveAddress rs1 imm s) (readReg rs2 s) s) s)) := by
  rw [exec, execSh, storeBy, memWriteHalf_ok he h, Access.conclude, wordWithHalf]

/-- Settles O49. -/
theorem byteStores : Obligations.ByteStores :=
  ⟨decodesS_of_row (k := .SB) rfl rfl fun _ => rfl, fun _ _ _ s hm =>
    ⟨fun hin => storesTo_of_subword (memWriteByte_ok hin _) hm (stores_byte hm _),
      fun hin => traps_store_of_trap (memWriteByte_outOfRange hin _) s⟩⟩

/-- Settles O50. -/
theorem halfwordStores : Obligations.HalfwordStores :=
  ⟨decodesS_of_row (k := .SH) rfl rfl fun _ => rfl, fun _ _ _ s hm =>
    ⟨fun he hin => storesTo_of_subword (memWriteHalf_ok he hin _) hm (stores_half hm he _),
      fun he => traps_store_of_trap (memWriteHalf_misaligned he _) s,
      fun he hin => traps_store_of_trap (memWriteHalf_outOfRange he hin _) s⟩⟩

/-- R193: SW in range is one word write. -/
theorem exec_sw_ok {rs1 rs2 : RegIdx} {imm : Word} {s : State} (h : WordAccessible (effectiveAddress rs1 imm s) s) :
    exec (.sw rs1 rs2 imm) s =
      .next (retire (afterWordStore (effectiveAddress rs1 imm s) (readReg rs2 s) s)) := by
  rw [exec, execSw, storeBy, memWriteWord, wordWrite_ok h, Access.conclude, afterWordStore]

/-- R32: the word written is read back, retired or not. -/
theorem wordRead_afterWordStore {a w : Word} {s : State} (hm : Memory.wf s.mem) (ha : WordAccessible a s) :
    ∃ u, wordRead a (retire (afterWordStore a w s)) = .ok w u := by
  have hacc : WordAccessible a (retire (afterWordStore a w s)) := by
    rw [WordAccessible, retire_params, afterWordStore_params]
    exact ha
  refine ⟨busRead a (retire (afterWordStore a w s)), ?_⟩
  rw [wordRead_ok hacc, retire_mem, afterWordStore_mem, Memory.readWord_writeWord hm]

/-- R193: SW in range stores all of `x[rs2]` by one write. -/
theorem storesTo_sw {rs1 rs2 : RegIdx} {imm : Word} {s : State} (hm : Memory.wf s.mem)
    (h : WordAccessible (effectiveAddress rs1 imm s) s) :
    StoresTo (exec (.sw rs1 rs2 imm) s) s 4 0 (effectiveAddress rs1 imm s) (readReg rs2 s) := by
  refine ⟨_, exec_sw_ok h, congrArg (· + 4) (afterWordStore_pc _ _ s), stores_word hm _,
    readReg_congr (afterWordStore_cells _ _ s), afterWordStore_context _ _ s, ?_⟩
  rw [h.1, Nat.sub_zero, retire_mem, afterWordStore_mem, Memory.readWord_writeWord hm]
  exact afterWordStore_afterWrite _ _ s

/-- Settles O51. -/
theorem wordStores : Obligations.WordStores := by
  refine ⟨decodesS_of_row (k := .SW) rfl rfl fun _ => rfl, fun rs1 rs2 imm s hm => ⟨fun hacc => ?_,
    fun ha => traps_store_of_trap (wordWrite_misaligned ha _) s,
    fun ha hr => traps_store_of_trap (wordWrite_outOfRange ha hr _) s⟩⟩
  obtain ⟨u, hu⟩ := wordRead_afterWordStore (w := readReg rs2 s) hm hacc
  exact ⟨storesTo_sw hm hacc, _, u, exec_sw_ok hacc, hu⟩

/-- Settles O34: the fetch after the store is the read of the word just written. -/
theorem storeIsSeenByTheNextFetch : Obligations.StoreIsSeenByTheNextFetch := by
  intro rs1 rs2 imm s hm hacc hea
  rw [← hea] at hacc
  obtain ⟨u, hu⟩ := wordRead_afterWordStore (w := readReg rs2 s) hm hacc
  have hpc : (retire (afterWordStore (effectiveAddress rs1 imm s) (readReg rs2 s) s)).pc = s.pc + 4 := by simp
  refine ⟨_, exec_sw_ok hacc, hpc, u, ?_⟩
  rw [fetch, memReadWord, hpc, ← hea]
  exact hu

/-! ## Lanes and little-endian reading -/

/-- R41: bit by bit, the byte lane takes the value's low byte and the rest of the word is kept. -/
theorem getLsbD_replaceByte (w v : Word) (sh i : Nat) (hi : i < 32) :
    (replaceBits w 0x000000FF (zext 8 (v.extractLsb' 0 8)) sh).getLsbD i =
      if sh ≤ i ∧ i < sh + 8 then v.getLsbD (i - sh) else w.getLsbD i := by
  have hbits := getLsbD_replaceBits w 8 (v.extractLsb' 0 8) sh i hi
  rw [show (0x000000FF : Word) = BitVec.ofNat 32 (2 ^ 8 - 1) from rfl, hbits]
  by_cases h : sh ≤ i ∧ i < sh + 8
  · rw [if_pos h, if_pos h, BitVec.getLsbD_extractLsb', decide_eq_true (by omega), Bool.true_and, Nat.zero_add]
  · rw [if_neg h, if_neg h]

/-- Settles O32. -/
theorem byteWriteReplacesOneLane : Obligations.ByteWriteReplacesOneLane := by
  refine ⟨fun a v s hm hin => ⟨_, memWriteByte_ok hin v, afterSubwordStore_cells _ _ s, afterSubwordStore_pc _ _ s,
    afterSubwordStore_context _ _ s, ?_⟩, fun a v s hin => memWriteByte_outOfRange hin v⟩
  rw [containingWord_afterSubwordStore hm]
  exact ⟨fun i hi => getLsbD_replaceByte _ v _ i hi, afterSubwordStore_afterWrite a _ s⟩

/-- An address inside an accessible word does not wrap around. -/
theorem toNat_add_lane {a : Word} {s : State} (hv : s.params.valid) (ha : WordAccessible a s) {k : Nat} (hk : k < 4) :
    (a + BitVec.ofNat 32 k).toNat = a.toNat + k := by
  obtain ⟨-, -, hsize⟩ := hv
  obtain ⟨-, hin⟩ := ha
  rw [BitVec.toNat_add, BitVec.toNat_ofNat]
  omega

/-- The word that contains byte `k` of an aligned word just written is the word written. -/
theorem containingWord_lane_afterWordStore {a w : Word} {s : State} (hm : Memory.wf s.mem) (ha : WordAccessible a s)
    {b : Word} {k : Nat} (hk : k < 4) (hb : b.toNat = a.toNat + k) :
    containingWord b (afterWordStore a w s) = w ∧ InMemory b (afterWordStore a w s) ∧ b.toNat % 4 = k := by
  obtain ⟨haligned, hin⟩ := ha
  have hlane : b.toNat % 4 = k := by omega
  refine ⟨?_, ?_, hlane⟩
  · rw [containingWord, hlane, hb, Nat.add_sub_cancel, afterWordStore_mem, Memory.readWord_writeWord hm]
  · rw [InMemory, afterWordStore_params]
    omega

theorem memReadByte_afterWordStore {a w : Word} {s : State} (hm : Memory.wf s.mem) (ha : WordAccessible a s)
    {b : Word} {k : Nat} (hk : k < 4) (hb : b.toNat = a.toNat + k) :
    ∃ u, memReadByte b (afterWordStore a w s) = .ok (w.extractLsb' (8 * k) 8) u := by
  obtain ⟨hword, hin, hlane⟩ := containingWord_lane_afterWordStore (w := w) hm ha hk hb
  refine ⟨busRead (wordAddr b) (afterWordStore a w s), ?_⟩
  rw [memReadByte_ok hin, hword, hlane, byteLane]

theorem memReadHalf_afterWordStore {a w : Word} {s : State} (hm : Memory.wf s.mem) (ha : WordAccessible a s)
    {b : Word} {k : Nat} (hk : k < 4) (heven : b.toNat % 2 = 0) (hb : b.toNat = a.toNat + k) :
    ∃ u, memReadHalf b (afterWordStore a w s) = .ok (w.extractLsb' (8 * k) 16) u := by
  obtain ⟨hword, hin, hlane⟩ := containingWord_lane_afterWordStore (w := w) hm ha hk hb
  refine ⟨busRead (wordAddr b) (afterWordStore a w s), ?_⟩
  rw [memReadHalf_ok heven hin, hword, hlane]

/-- Settles O33: byte `k` and both halfwords are read from the word just written. -/
theorem mixedWidthAccessesAreLittleEndian : Obligations.MixedWidthAccessesAreLittleEndian := by
  intro a w s hm hv ha
  have hnext : (a + 2).toNat = a.toNat + 2 := toNat_add_lane hv ha (k := 2) (by omega)
  have haligned : a.toNat % 4 = 0 := ha.1
  exact ⟨_, wordWrite_ok ha w, fun k hk => memReadByte_afterWordStore hm ha hk (toNat_add_lane hv ha hk),
    memReadHalf_afterWordStore hm ha (k := 0) (by omega) (by omega) rfl,
    memReadHalf_afterWordStore hm ha (k := 2) (by omega) (by omega) hnext⟩

end Sys2Proof.Machine
end

section
/-! Proofs about the invariant (`10_state.md` R15, `20_memory.md` R22, `60_exceptions.md` R224): the trap a step takes
is one whose condition holds where the core stops, and every step keeps the invariant. -/

namespace Sys2Proof.Machine

/-! ## The condition of a trap -/

/-- `TrapConsistent` speaks of the run state, the program counter, memory and the memory size alone. -/
theorem TrapConsistent.congr {s t : State} (h : TrapConsistent s) (hrun : t.run = s.run) (hpc : t.pc = s.pc)
    (hmem : t.mem = s.mem) (hparams : t.params = s.params) : TrapConsistent t := by
  unfold TrapConsistent fetchedWord WordAccessible at *
  rw [hrun, hpc, hmem, hparams]
  exact h

theorem trapConsistent_running {s : State} (h : s.run = .running) : TrapConsistent s := by
  unfold TrapConsistent
  rw [h]
  trivial

/-- An access of 1, 2 or 4 bytes that faults has a bad address: one not aligned to a word, or an aligned one outside
memory (R35). -/
theorem trapConsistent_of_accessTrap {n : Nat} (hn : n ∣ 4) {ea : Word} {s : State} {tr : Trap}
    (h : accessTrap n ea s = some tr) : TrapConsistent (takeTrap tr s) := by
  by_cases ha : ea.toNat % n = 0
  · by_cases hm : InMemory ea s
    · simp [accessTrap_none ha hm] at h
    · obtain rfl : .accessFault .outOfRange (wordAddr ea) = tr := by simpa [accessTrap_outOfRange ha hm] using h
      have hrange : s.params.memSize < (wordAddr ea).toNat + 4 := by rw [wordAddr_toNat]; omega
      exact ⟨wordAddr_aligned ea, hrange⟩
  · obtain rfl : .accessFault .misaligned ea = tr := by simpa [accessTrap_misaligned ha] using h
    exact fun h4 => ha (Nat.mod_eq_zero_of_dvd (hn.trans (Nat.dvd_of_mod_eq_zero h4)))

/-- The trap a decoded instruction takes has its condition: EBREAK's at an EBREAK, an access's at a bad address. -/
theorem trapConsistent_of_instrTrap {i : Instr} {s : State} {tr : Trap} (hacc : WordAccessible s.pc s)
    (hd : decode (fetchedWord s) = .ok i) (h : instrTrap i s = some tr) : TrapConsistent (takeTrap tr s) := by
  cases i with
  | lb | lbu | sb | lh | lhu | sh | lw | sw => exact trapConsistent_of_accessTrap (by decide) h
  | ebreak =>
    obtain rfl : .breakpoint s.pc = tr := Option.some.inj h
    exact ⟨rfl, hacc, hd⟩
  | _ => cases h

/-- An access that takes no trap is aligned and inside memory. -/
theorem of_accessTrap_eq_none {n : Nat} {ea : Word} {s : State} (h : accessTrap n ea s = none) :
    ea.toNat % n = 0 ∧ InMemory ea s := by
  by_cases ha : ea.toNat % n = 0
  · by_cases hm : InMemory ea s
    · exact ⟨ha, hm⟩
    · simp [accessTrap_outOfRange ha hm] at h
  · simp [accessTrap_misaligned ha] at h

theorem wordAccessible_of_accessTrap_eq_none {ea : Word} {s : State} (h : accessTrap 4 ea s = none) :
    WordAccessible ea s := by
  obtain ⟨ha, hm⟩ := of_accessTrap_eq_none h
  exact ⟨ha, (inMemory_of_aligned ha).mp hm⟩

/-- R77: the decoder gives one reason for a rejection. -/
theorem decode_error_eq {w : Word} {f : DecodeFailure} (h : decode w = .error f) : f = .unrecognizedEncoding w := by
  rcases decode_cases w with ⟨k, -, hd⟩ | ⟨-, hd⟩
  · simp [hd] at h
  · simpa [hd] using h.symm

/-- R224, R230: the trap the table gives a step has its condition in the state before the step. -/
theorem trapConsistent_of_stepTrap {s : State} {tr : Trap} (h : stepTrap s = some tr) :
    TrapConsistent (takeTrap tr s) := by
  cases hf : accessTrap 4 s.pc s with
  | some tr' =>
    obtain rfl : tr' = tr := by simpa [stepTrap, hf] using h
    exact trapConsistent_of_accessTrap (by decide) hf
  | none =>
    have hacc := wordAccessible_of_accessTrap_eq_none hf
    cases hd : decode (fetchedWord s) with
    | error f =>
      obtain rfl : .decodeFailure (fetchedWord s) = tr := by simpa [stepTrap, hf, hd] using h
      exact ⟨rfl, hacc, decode_error_eq hd ▸ hd⟩
    | ok i => exact trapConsistent_of_instrTrap hacc hd (by simpa [stepTrap, hf, hd] using h)

/-! ## The ways a step of a running core can end, given the state it answers -/

@[simp] theorem dispatchState_cells (s : State) : (dispatchState s).cells = s.cells.set 0 0 := by simp [dispatchState]
@[simp] theorem dispatchState_pc (s : State) : (dispatchState s).pc = s.pc := by simp [dispatchState]
@[simp] theorem dispatchState_run (s : State) : (dispatchState s).run = s.run := by simp [dispatchState]
@[simp] theorem dispatchState_mem (s : State) : (dispatchState s).mem = s.mem := by simp [dispatchState]
@[simp] theorem dispatchState_output (s : State) : (dispatchState s).output = s.output := by simp [dispatchState]
@[simp] theorem dispatchState_hostState (s : State) : (dispatchState s).hostState = s.hostState := by
  simp [dispatchState]
@[simp] theorem dispatchState_params (s : State) : (dispatchState s).params = s.params := by simp [dispatchState]

/-- `step_cases` for the state a step is known to answer. -/
theorem step_next_cases {s t : State} (hr : s.run = .running) (hs : step s = .next t) :
    (∃ i, decode (fetchedWord s) = .ok i ∧ instrTrap i s = none ∧ exec i (dispatchState s) = .next t ∧
      Retired i (dispatchState s) t) ∨
    (∃ tr b, t = takeTrap tr b ∧ stepTrap s = some tr ∧ (b = s ∨ b = busRead s.pc s ∨ b = dispatchState s)) := by
  obtain ⟨i, u, hu, -, -, hd, htr, he, hR⟩ | ⟨tr, b, hu, htr, hb⟩ := step_cases hr
  · obtain rfl : u = t := by simpa [hu] using hs
    exact .inl ⟨i, hd, htr, he, hR⟩
  · exact .inr ⟨tr, b, by simpa [hu] using hs.symm, htr, hb⟩

/-- A step in `Trapped` is one clock unit (R226). -/
theorem eq_haltTick_of_step {s t : State} {tr : Trap} (hr : s.run = .trapped tr) (hs : step s = .next t) :
    t = haltTick s := by
  simpa [step_trapped hr] using hs.symm

/-! ## The invariant through a step -/

/-- The fetch and the clearing of raw cell 0 keep the invariant. -/
theorem inv_dispatchState {s : State} (h : Inv s) (hr : s.run = .running) : Inv (dispatchState s) where
  params := by simpa using h.params
  canonical := by simpa using h.canonical
  within := by simpa using h.within
  pcEven := by simpa using h.pcEven
  writeEnableLow := busRead_we _ _ h.writeEnableLow
  trap := trapConsistent_running (by simp [hr])

/-- A retired instruction that some word encodes keeps the invariant. -/
theorem inv_retired {i : Instr} {s t : State} (h : Inv s) (hr : s.run = .running) (hR : Retired i s t)
    (hi : i.WellFormed) : Inv t where
  params := hR.params ▸ h.params
  canonical := hR.canonical h.canonical
  within := hR.params ▸ hR.within h.within
  pcEven := hR.pcEven hi h.pcEven
  writeEnableLow := hR.writeEnableLow h.writeEnableLow
  trap := trapConsistent_running (hR.run.trans hr)

/-- What a step that traps stops with: everything but the run state, the bus, the clock and raw cell 0 is as before. -/
theorem takeTrap_keeps {s b : State} (hb : b = s ∨ b = busRead s.pc s ∨ b = dispatchState s) (tr : Trap) :
    (takeTrap tr b).pc = s.pc ∧ (takeTrap tr b).mem = s.mem ∧ (takeTrap tr b).output = s.output ∧
      (takeTrap tr b).hostState = s.hostState ∧ (takeTrap tr b).params = s.params := by
  obtain rfl | rfl | rfl := hb <;> simp

/-- A step that traps keeps the invariant. -/
theorem inv_takeTrap {s b : State} {tr : Trap} (h : Inv s)
    (hb : b = s ∨ b = busRead s.pc s ∨ b = dispatchState s) (htr : stepTrap s = some tr) :
    Inv (takeTrap tr b) := by
  obtain ⟨hpc, hmem, -, -, hparams⟩ := takeTrap_keeps hb tr
  exact
    { params := hparams ▸ h.params
      canonical := hmem ▸ h.canonical
      within := hmem ▸ hparams ▸ h.within
      pcEven := hpc ▸ h.pcEven
      writeEnableLow := by
        obtain rfl | rfl | rfl := hb
        · exact h.writeEnableLow
        · exact busRead_we _ _ h.writeEnableLow
        · exact busRead_we _ _ h.writeEnableLow
      trap := (trapConsistent_of_stepTrap htr).congr rfl hpc hmem hparams }

theorem inv_haltTick {s : State} (h : Inv s) : Inv (haltTick s) where
  params := h.params
  canonical := h.canonical
  within := h.within
  pcEven := h.pcEven
  writeEnableLow := h.writeEnableLow
  trap := h.trap.congr rfl rfl rfl rfl

/-- Settles O18: in `Trapped` only the clock moves; a running core's step retires an instruction that was decoded, so
is well formed, or takes the trap the table gives. -/
theorem everyStepKeepsTheInvariant : Obligations.EveryStepKeepsTheInvariant := by
  intro s t h hs
  cases hr : s.run with
  | trapped tr =>
    obtain rfl := eq_haltTick_of_step hr hs
    exact inv_haltTick h
  | running =>
    obtain ⟨i, hd, -, -, hR⟩ | ⟨tr, b, rfl, htr, hb⟩ := step_next_cases hr hs
    · exact inv_retired (inv_dispatchState h hr) (by simp [hr]) hR (wellFormed_of_decode hd)
    · exact inv_takeTrap h hb htr

/-! ## The invariant at the start -/

theorem resetPc_even : resetPc.toNat % 2 = 0 := by decide

/-- Settles O20: memory at reset is canonical and inside the memory, whatever the setup lists. -/
theorem bootedCoreMeetsTheInvariant : Obligations.BootedCoreMeetsTheInvariant := by
  intro b s h
  obtain ⟨hvalid, himage, rfl⟩ := boot_some h
  exact
    { params := hvalid
      canonical := Memory.initial_wf _ _ _
      within := Memory.initial_within _ himage
      pcEven := resetPc_even
      writeEnableLow := rfl
      trap := trivial }

/-- Settles O19: the state after reset is one a core starts in. -/
theorem resetMeetsTheInvariant : Obligations.ResetMeetsTheInvariant :=
  bootedCoreMeetsTheInvariant resetSetup State.reset boot_resetSetup

end Sys2Proof.Machine
end

section
/-! Proof that the realization of the port is invisible to a program (`20_memory.md` R48, `10_state.md` R24): a
simulation, carried from the bus transactions through the accesses and the operand forms to the step. -/

namespace Sys2Proof.Machine

/-! ## What a program cannot see: the bus and the clock -/

theorem SameToProgram.symm {s t : State} (h : SameToProgram s t) : SameToProgram t s :=
  ⟨h.cells.symm, h.pc.symm, h.run.symm, h.mem.symm, h.output.symm, h.hostState.symm, h.memSize.symm, h.handler.symm⟩

theorem SameToProgram.trans {s t u : State} (h : SameToProgram s t) (g : SameToProgram t u) : SameToProgram s u :=
  ⟨h.cells.trans g.cells, h.pc.trans g.pc, h.run.trans g.run, h.mem.trans g.mem, h.output.trans g.output,
    h.hostState.trans g.hostState, h.memSize.trans g.memSize, h.handler.trans g.handler⟩

theorem busRead_sameToProgram (a : Word) (s : State) : SameToProgram (busRead a s) s := by constructor <;> simp

theorem busWrite_sameToProgram (a w : Word) (s : State) : SameToProgram (busWrite a w s) s := by constructor <;> simp

theorem handlerTime_sameToProgram (x : RegFile) (s : State) : SameToProgram (handlerTime x s) s := by
  constructor <;> simp

theorem haltTick_sameToProgram (s : State) : SameToProgram (haltTick s) s := by constructor <;> simp

/-! ## The relation through reads and updates of the state -/

section

variable {s t : State} (h : SameToProgram s t)

include h

/-- Each state can be replaced by one that is the same to a program. -/
theorem SameToProgram.congr {s' t' : State} (hs : SameToProgram s' s) (ht : SameToProgram t' t) :
    SameToProgram s' t' := (hs.trans h).trans ht.symm

theorem SameToProgram.readReg_eq (i : RegIdx) : readReg i s = readReg i t := readReg_congr h.cells i

theorem SameToProgram.archRegs_eq : archRegs s = archRegs t := by rw [archRegs, h.cells, archRegs]

theorem SameToProgram.writeReg (rd : RegIdx) (v : Word) : SameToProgram (writeReg rd v s) (writeReg rd v t) where
  __ := h
  cells := by simp [h.cells]

theorem SameToProgram.retire : SameToProgram (retire s) (retire t) where
  __ := h
  pc := by simp [h.pc]

theorem SameToProgram.retireTo (target : Word) : SameToProgram (retireTo target s) (retireTo target t) where
  __ := h
  pc := rfl

theorem SameToProgram.takeTrap (tr : Trap) : SameToProgram (takeTrap tr s) (takeTrap tr t) where
  __ := h
  run := rfl

theorem SameToProgram.writeWord (a : Nat) (w : Word) :
    SameToProgram { s with mem := Memory.writeWord s.mem a w } { t with mem := Memory.writeWord t.mem a w } where
  __ := h
  mem := congrArg (Memory.writeWord · a w) h.mem

theorem SameToProgram.acceptReply (r : HandlerReply) : SameToProgram (acceptReply r s) (acceptReply r t) where
  __ := h
  cells := rfl
  output := by simp [h.output]
  hostState := rfl

theorem SameToProgram.beginDispatch : SameToProgram (beginDispatch s) (beginDispatch t) where
  __ := h
  cells := by simp [h.cells]

end

/-! ## Accesses -/

/-- Both accesses answer the same value in states that are the same to a program, or both take the same trap. -/
inductive SameAccess {α : Type} : Access α → Access α → Prop
  | ok (v : α) {s t : State} (h : SameToProgram s t) : SameAccess (.ok v s) (.ok v t)
  | trap (tr : Trap) : SameAccess (.trap tr) (.trap tr)

theorem SameAccess.bind {α β : Type} {r p : Access α} (h : SameAccess r p) {k l : α → State → Access β}
    (hk : ∀ v s t, SameToProgram s t → SameAccess (k v s) (l v t)) : SameAccess (r.bind k) (p.bind l) := by
  cases h with
  | ok v hst => exact hk v _ _ hst
  | trap tr => exact .trap tr

section

variable {s t : State} (h : SameToProgram s t)

include h

/-- R35: the checks see the address and the memory size, and the port's word is memory's. -/
theorem sameAccess_wordRead (a : Word) : SameAccess (wordRead a s) (wordRead a t) := by
  by_cases ha : a.toNat % 4 = 0
  · by_cases hm : a.toNat + 4 ≤ s.params.memSize
    · rw [wordRead_ok ⟨ha, hm⟩, wordRead_ok ⟨ha, h.memSize ▸ hm⟩, h.mem]
      exact .ok _ (h.congr (busRead_sameToProgram a s) (busRead_sameToProgram a t))
    · have hs := Nat.lt_of_not_le hm
      rw [wordRead_outOfRange ha hs, wordRead_outOfRange ha (h.memSize ▸ hs)]
      exact .trap _
  · rw [wordRead_misaligned ha, wordRead_misaligned ha]
    exact .trap _

theorem sameAccess_wordWrite (a w : Word) : SameAccess (wordWrite a w s) (wordWrite a w t) := by
  by_cases ha : a.toNat % 4 = 0
  · by_cases hm : a.toNat + 4 ≤ s.params.memSize
    · rw [wordWrite_ok ⟨ha, hm⟩, wordWrite_ok ⟨ha, h.memSize ▸ hm⟩]
      exact .ok _ ((h.writeWord a.toNat w).congr (busWrite_sameToProgram a w _) (busWrite_sameToProgram a w _))
    · have hs := Nat.lt_of_not_le hm
      rw [wordWrite_outOfRange ha hs, wordWrite_outOfRange ha (h.memSize ▸ hs)]
      exact .trap _
  · rw [wordWrite_misaligned ha, wordWrite_misaligned ha]
    exact .trap _

theorem sameAccess_memReadByte (a : Word) : SameAccess (memReadByte a s) (memReadByte a t) :=
  (sameAccess_wordRead h _).bind fun _ _ _ hst => .ok _ hst

theorem sameAccess_memReadHalf (a : Word) : SameAccess (memReadHalf a s) (memReadHalf a t) := by
  unfold memReadHalf
  split
  · exact .trap _
  · exact (sameAccess_wordRead h _).bind fun _ _ _ hst => .ok _ hst

theorem sameAccess_memWriteByte (a v : Word) : SameAccess (memWriteByte a v s) (memWriteByte a v t) :=
  (sameAccess_wordRead h _).bind fun _ _ _ hst => sameAccess_wordWrite hst _ _

theorem sameAccess_memWriteHalf (a v : Word) : SameAccess (memWriteHalf a v s) (memWriteHalf a v t) := by
  unfold memWriteHalf
  split
  · exact .trap _
  · exact (sameAccess_wordRead h _).bind fun _ _ _ hst => sameAccess_wordWrite hst _ _

end

/-! ## Outcomes -/

/-- Both steps answer states that are the same to a program. -/
def SameOutcome (o p : Result) : Prop := ∃ s t, o = .next s ∧ p = .next t ∧ SameToProgram s t

theorem SameToProgram.next {s t : State} (h : SameToProgram s t) : SameOutcome (.next s) (.next t) :=
  ⟨s, t, rfl, rfl, h⟩

theorem SameAccess.conclude {α : Type} {r p : Access α} (h : SameAccess r p) {s t : State} (hst : SameToProgram s t)
    {k l : α → State → Result} (hk : ∀ v s t, SameToProgram s t → SameOutcome (k v s) (l v t)) :
    SameOutcome (r.conclude s k) (p.conclude t l) := by
  cases h with
  | ok v hst' => exact hk v _ _ hst'
  | trap tr => exact (hst.takeTrap tr).next

section

variable {s t : State} (h : SameToProgram s t)

include h

theorem sameOutcome_result (rd : RegIdx) (v : Word) : SameOutcome (result rd v s) (result rd v t) :=
  (h.writeReg rd v).retire.next

theorem sameOutcome_regImm (f : Word → Word → Word) (rd rs1 : RegIdx) (imm : Word) :
    SameOutcome (regImm f rd rs1 imm s) (regImm f rd rs1 imm t) := by
  rw [regImm, regImm, h.readReg_eq]
  exact sameOutcome_result h rd _

theorem sameOutcome_regReg (f : Word → Word → Word) (rd rs1 rs2 : RegIdx) :
    SameOutcome (regReg f rd rs1 rs2 s) (regReg f rd rs1 rs2 t) := by
  rw [regReg, regReg, h.readReg_eq, h.readReg_eq]
  exact sameOutcome_result h rd _

theorem sameOutcome_branchIf (cond : Word → Word → Bool) (rs1 rs2 : RegIdx) (imm : Word) :
    SameOutcome (branchIf cond rs1 rs2 imm s) (branchIf cond rs1 rs2 imm t) := by
  rw [branchIf, branchIf, h.readReg_eq, h.readReg_eq, relativeTarget, relativeTarget, h.pc]
  split
  · exact (h.retireTo _).next
  · exact h.retire.next

theorem sameOutcome_linkAndJump (rd : RegIdx) (target : Word) :
    SameOutcome (linkAndJump rd target s) (linkAndJump rd target t) := by
  rw [linkAndJump, linkAndJump, h.pc]
  exact ((h.writeReg rd _).retireTo target).next

theorem sameOutcome_loadInto {n : Nat} (rd : RegIdx) {r p : Access (BitVec n)} (hr : SameAccess r p)
    (extend : BitVec n → Word) : SameOutcome (loadInto rd r extend s) (loadInto rd p extend t) :=
  hr.conclude h fun _ _ _ hst => sameOutcome_result hst rd _

theorem sameOutcome_storeBy {r p : Access Unit} (hr : SameAccess r p) : SameOutcome (storeBy r s) (storeBy p t) :=
  hr.conclude h fun _ _ _ hst => hst.retire.next

theorem SameToProgram.effectiveAddress_eq (rs1 : RegIdx) (imm : Word) :
    effectiveAddress rs1 imm s = effectiveAddress rs1 imm t := by
  rw [effectiveAddress, effectiveAddress, h.readReg_eq]

theorem sameOutcome_execEcall : SameOutcome (execEcall s) (execEcall t) := by
  rw [execEcall, execEcall, h.archRegs_eq, h.handler, h.hostState]
  have htime := h.congr (handlerTime_sameToProgram (archRegs t) s) (handlerTime_sameToProgram (archRegs t) t)
  exact (htime.acceptReply _).retire.next

/-- Every instruction takes states that are the same to a program to such states. -/
theorem sameOutcome_exec (i : Instr) : SameOutcome (exec i s) (exec i t) := by
  cases i with
  | lui rd imm => exact sameOutcome_result h rd imm
  | auipc rd imm =>
    simp only [exec, execAuipc, h.pc]
    exact sameOutcome_result h rd _
  | jal rd imm =>
    simp only [exec, execJal, relativeTarget, h.pc]
    exact sameOutcome_linkAndJump h rd _
  | jalr rd rs1 imm =>
    simp only [exec, execJalr, indirectTarget, h.readReg_eq]
    exact sameOutcome_linkAndJump h rd _
  | beq | bne | blt | bge | bltu | bgeu => exact sameOutcome_branchIf h _ _ _ _
  | lb rd rs1 imm | lbu rd rs1 imm =>
    simp only [exec, execLb, execLbu, h.effectiveAddress_eq]
    exact sameOutcome_loadInto h rd (sameAccess_memReadByte h _) _
  | lh rd rs1 imm | lhu rd rs1 imm =>
    simp only [exec, execLh, execLhu, h.effectiveAddress_eq]
    exact sameOutcome_loadInto h rd (sameAccess_memReadHalf h _) _
  | lw rd rs1 imm =>
    simp only [exec, execLw, h.effectiveAddress_eq]
    exact sameOutcome_loadInto h rd (sameAccess_wordRead h _) _
  | sb rs1 rs2 imm =>
    simp only [exec, execSb, h.effectiveAddress_eq, h.readReg_eq]
    exact sameOutcome_storeBy h (sameAccess_memWriteByte h _ _)
  | sh rs1 rs2 imm =>
    simp only [exec, execSh, h.effectiveAddress_eq, h.readReg_eq]
    exact sameOutcome_storeBy h (sameAccess_memWriteHalf h _ _)
  | sw rs1 rs2 imm =>
    simp only [exec, execSw, h.effectiveAddress_eq, h.readReg_eq]
    exact sameOutcome_storeBy h (sameAccess_wordWrite h _ _)
  | addi | slti | sltiu | xori | ori | andi | slli | srli | srai => exact sameOutcome_regImm h _ _ _ _
  | add | sub | sll | slt | sltu | xor | srl | sra | or | and => exact sameOutcome_regReg h _ _ _ _
  | fence => exact h.retire.next
  | ecall => exact sameOutcome_execEcall h
  | ebreak =>
    simp only [exec, execEbreak, h.pc]
    exact (h.takeTrap _).next

theorem sameOutcome_decodeAndDispatch (inst : Word) :
    SameOutcome (decodeAndDispatch inst s) (decodeAndDispatch inst t) := by
  unfold decodeAndDispatch
  cases decode inst with
  | ok i => exact sameOutcome_exec h.beginDispatch i
  | error f => exact (h.takeTrap _).next

theorem sameOutcome_runningStep : SameOutcome (runningStep s) (runningStep t) := by
  rw [runningStep, runningStep, fetch, fetch, h.pc]
  exact (sameAccess_wordRead h _).conclude h fun inst _ _ hst => sameOutcome_decodeAndDispatch hst inst

end

/-- Settles O24: the step is a simulation, in `Trapped` because only the clock moves, in a running core because the
fetch, the decode and every instruction are one. -/
theorem realizationsAreTheSameToAProgram : Obligations.RealizationsAreTheSameToAProgram := by
  intro s t h
  change SameOutcome (step s) (step t)
  cases hr : s.run with
  | running =>
    rw [step_running hr, step_running (h.run ▸ hr)]
    exact sameOutcome_runningStep h
  | trapped tr =>
    rw [step_trapped hr, step_trapped (h.run ▸ hr)]
    exact (h.congr (haltTick_sameToProgram s) (haltTick_sameToProgram t)).next

end Sys2Proof.Machine
end

section
/-! Proofs about the step (`40_core_cycle.md` R90 to R99, `60_exceptions.md` R224 to R230): its phases, the trap it
takes, and what it leaves alone. -/

namespace Sys2Proof.Machine

/-! ## The phases of a step -/

/-- What the fetch, the clock unit and the clearing of raw cell 0 change (R92 to R95). -/
theorem dispatchState_frame (s : State) :
    (dispatchState s).cells = s.cells.set 0 0 ∧ SameRegs s (dispatchState s) ∧ (dispatchState s).pc = s.pc ∧
      (dispatchState s).mem = s.mem ∧ SameContext s (dispatchState s) :=
  ⟨dispatchState_cells s, sameRegs_dispatchState s, dispatchState_pc s, dispatchState_mem s, dispatchState_run s,
    dispatchState_output s, dispatchState_hostState s, dispatchState_params s⟩

theorem dispatchState_clock (s : State) : (dispatchState s).clock = s.clock + 1 + portUnits 1 s := by
  rw [dispatchState, beginDispatch_clock, busRead_clock]
  omega

/-- Settles O10. -/
theorem stepRunsTheDecodedInstruction : Obligations.StepRunsTheDecodedInstruction := by
  intro s i hr hacc hd
  obtain ⟨hcells, hregs, hpc, hmem, hctx⟩ := dispatchState_frame s
  refine ⟨dispatchState s, step_decoded hr hacc hd, hcells, hregs, hpc, hmem, hctx, ?_⟩
  cases hreal : s.params.realization with
  | software => simp [dispatchState, busRead_software s.pc s hreal]
  | hardware => simp [dispatchState, busRead_hardware_bus s.pc s hreal, busRead_hardware_clock s.pc s hreal]

/-- Settles O11. -/
theorem fetchChecksThenReads : Obligations.FetchChecksThenReads := by
  refine ⟨fun _ => step_misaligned, fun _ => step_outOfRange, fun s hacc => ?_⟩
  obtain ⟨hread, hmem, hcells, hpc, hctx⟩ := busRead_frame s.pc s
  exact ⟨_, fetch_ok hacc, hcells, hpc, hmem, hctx, hread⟩

/-- Settles O12. -/
theorem decodingContinuesOrTraps : Obligations.DecodingContinuesOrTraps := by
  refine ⟨fun s i hr hacc hd => ?_, fun s f hr hacc hd => ?_⟩
  · obtain ⟨-, hregs, hpc, hmem, hrun, -⟩ := dispatchState_frame s
    exact ⟨dispatchState s, step_decoded hr hacc hd, hregs, hmem, hpc, hrun.trans hr⟩
  · obtain ⟨-, hmem, hcells, hpc, -, hout, hhost, hparams⟩ := busRead_frame s.pc s
    exact ⟨_, step_undecoded hr hacc hd, rfl, hcells, hpc, hmem, hout, hhost, hparams⟩

/-! ## The trap a step takes -/

/-- R224, R230: every step of a running core takes the table's trap, or stays running. -/
theorem step_run {s : State} (hr : s.run = .running) :
    ∃ t, step s = .next t ∧ t.run = (match stepTrap s with
      | some tr => .trapped tr
      | none => .running) ∧ (∀ tr, t.run = .trapped tr → t.pc = s.pc) := by
  obtain ⟨i, t, ht, hnone, -, -, -, -, hR⟩ | ⟨tr, b, ht, hsome, hb⟩ := step_cases hr
  · have hrun : t.run = .running := hR.run.trans ((dispatchState_run s).trans hr)
    exact ⟨t, ht, by rw [hnone, hrun], fun tr htr => by simp [hrun] at htr⟩
  · exact ⟨_, ht, by rw [hsome, takeTrap_run], fun _ _ => (takeTrap_keeps hb tr).1⟩

/-- Settles O14. -/
theorem stepTrapsExactlyAsTabled : Obligations.StepTrapsExactlyAsTabled := fun _ hr => by
  obtain ⟨t, ht, hrun, -⟩ := step_run hr
  exact ⟨t, ht, hrun⟩

/-- Settles O13. -/
theorem everyStepAnswersANextState : Obligations.EveryStepAnswersANextState := by
  intro s
  cases hr : s.run with
  | trapped tr => exact ⟨_, step_trapped hr, by simp⟩
  | running =>
    obtain ⟨t, ht, -, hpc⟩ := step_run hr
    refine ⟨t, ht, fun _ => ?_⟩
    cases hrun : t.run with
    | running => exact .inl rfl
    | trapped tr => exact .inr ⟨tr, rfl, hpc tr hrun⟩

/-- Settles O15: the step ends in one of the three states a trap can be taken in (`step_cases`). -/
theorem trappingStepIsPrecise : Obligations.TrappingStepIsPrecise := by
  intro s t tr hr hs htrap
  obtain ⟨i, -, -, -, hR⟩ | ⟨tr', b, rfl, hsome, hb⟩ := step_next_cases hr hs
  · simp [hR.run, hr] at htrap
  · obtain rfl : tr' = tr := by simpa using htrap
    obtain ⟨hpc, hmem, hout, hhost, hparams⟩ := takeTrap_keeps hb tr'
    refine ⟨hsome, hpc, sameRegs_takeTrap hb tr', ?_, hmem, hout, hhost, hparams⟩
    obtain rfl | rfl | rfl := hb
    · exact .inl rfl
    · exact .inl (busRead_cells s.pc s)
    · exact .inr (dispatchState_cells s)

theorem step_params {s t : State} (hs : step s = .next t) : t.params = s.params := by
  cases hr : s.run with
  | trapped tr =>
    obtain rfl := eq_haltTick_of_step hr hs
    rfl
  | running =>
    obtain ⟨i, -, -, -, hR⟩ | ⟨tr, b, rfl, -, hb⟩ := step_next_cases hr hs
    · exact hR.params.trans (dispatchState_params s)
    · obtain ⟨-, -, -, -, hparams⟩ := takeTrap_keeps hb tr
      exact hparams

/-- A retired instruction other than ECALL, and a trap, leave the handler alone. -/
theorem step_handler {s t : State} (hs : step s = .next t) (hr : s.run = .running)
    (hne : decode (fetchedWord s) ≠ .ok .ecall) : t.output = s.output ∧ t.hostState = s.hostState := by
  obtain ⟨i, hd, -, -, hR⟩ | ⟨tr, b, rfl, -, hb⟩ := step_next_cases hr hs
  · obtain ⟨hout, hhost⟩ := hR.handler fun hi => hne (hi ▸ hd)
    exact ⟨hout.trans (dispatchState_output s), hhost.trans (dispatchState_hostState s)⟩
  · obtain ⟨-, -, hout, hhost, -⟩ := takeTrap_keeps hb tr
    exact ⟨hout, hhost⟩

/-- Settles O27. -/
theorem onlyEcallReachesTheHandler : Obligations.OnlyEcallReachesTheHandler :=
  ⟨fun _ _ => step_params, fun _ _ => step_handler⟩

end Sys2Proof.Machine
end

section
/-! Proofs about an instruction that retires, by one case analysis of what each does to the program counter, the clock
and memory (`40_core_cycle.md` R97, `70_reset_and_hazards.md` R264, `20_memory.md` R32). -/

namespace Sys2Proof.Machine

/-! ## What an instruction that takes no trap does -/

/-- The instruction is the store of `n` bytes with these operands. -/
def IsStore (i : Instr) (rs1 rs2 : RegIdx) (imm : Word) (n : Nat) : Prop :=
  i = .sb rs1 rs2 imm ∧ n = 1 ∨ i = .sh rs1 rs2 imm ∧ n = 2 ∨ i = .sw rs1 rs2 imm ∧ n = 4

/-- Where the instruction continues, the clock units its accesses and its handler take, and that memory changes in the
bytes of a store alone. -/
structure Effect (i : Instr) (s t : State) : Prop where
  pc : t.pc = nextPc i s
  clock : t.clock = s.clock + portUnits (hardwareUnits i s - 2) s
  memory : Memory.wf s.mem → SameMemory s t ∨
    ∃ rs1 rs2 imm n, IsStore i rs1 rs2 imm n ∧ Stores n (effectiveAddress rs1 imm s) (readReg rs2 s) s t

theorem portUnits_zero (s : State) : portUnits 0 s = 0 := by
  unfold portUnits
  cases s.params.realization <;> rfl

/-- An instruction that computes or continues has the effect of its target, in no time of its own. -/
theorem effect_of_noTransaction {i : Instr} {s t : State} (hpc : t.pc = nextPc i s) (hu : hardwareUnits i s = 2)
    (hmem : SameMemory s t) (ht : NoTransaction s t) : Effect i s t where
  pc := hpc
  clock := by rw [hu, portUnits_zero]; exact ht.2
  memory := fun _ => .inl hmem

theorem effect_of_computes {i : Instr} {s : State} {rd : RegIdx} {v : Word}
    (h : Computes (exec i s) s rd v (nextPc i s)) (hu : hardwareUnits i s = 2) :
    ∃ t, exec i s = .next t ∧ Effect i s t := by
  obtain ⟨t, ht, -, hpc, hmem, -, hno⟩ := h
  exact ⟨t, ht, effect_of_noTransaction hpc hu hmem hno⟩

theorem effect_of_continues {i : Instr} {s : State} (h : Continues (exec i s) s (nextPc i s))
    (hu : hardwareUnits i s = 2) : ∃ t, exec i s = .next t ∧ Effect i s t := by
  obtain ⟨t, ht, hpc, -, hmem, -, hno⟩ := h
  exact ⟨t, ht, effect_of_noTransaction hpc hu hmem hno⟩

theorem AfterRead.clock {a : Word} {s t : State} (h : AfterRead a s t) : t.clock = s.clock + portUnits 1 s := by
  revert h
  unfold AfterRead portUnits
  cases s.params.realization <;> exact fun h => h.2

theorem effect_of_loads {i : Instr} {s : State} {a : Word} {rd : RegIdx} {v : Word} (h : Loads (exec i s) s a rd v)
    (hpc : nextPc i s = s.pc + 4) (hu : hardwareUnits i s = 3) : ∃ t, exec i s = .next t ∧ Effect i s t := by
  obtain ⟨t, ht, -, htpc, hmem, -, hread⟩ := h
  exact ⟨t, ht, htpc.trans hpc.symm, by rw [hu]; exact hread.clock, fun _ => .inl hmem⟩

/-- R191, R192: a sub-word store reads and writes the containing word. -/
theorem effect_of_subwordStore {i : Instr} {rs1 rs2 : RegIdx} {imm w : Word} {n : Nat} {s : State}
    (hi : IsStore i rs1 rs2 imm n)
    (hexec : exec i s = .next (retire (afterSubwordStore (effectiveAddress rs1 imm s) w s)))
    (hstores : Memory.wf s.mem →
      Stores n (effectiveAddress rs1 imm s) (readReg rs2 s) s (afterSubwordStore (effectiveAddress rs1 imm s) w s))
    (hpc : nextPc i s = s.pc + 4) (hu : hardwareUnits i s = 4) : ∃ t, exec i s = .next t ∧ Effect i s t :=
  ⟨_, hexec,
    { pc := hpc ▸ congrArg (· + 4) (afterSubwordStore_pc _ w s)
      clock := by rw [hu]; exact afterSubwordStore_clock _ w s
      memory := fun hm => .inr ⟨rs1, rs2, imm, n, hi, hstores hm⟩ }⟩

/-- R193: a word store is one write. -/
theorem effect_sw {rs1 rs2 : RegIdx} {imm : Word} {s : State} (h : WordAccessible (effectiveAddress rs1 imm s) s) :
    ∃ t, exec (.sw rs1 rs2 imm) s = .next t ∧ Effect (.sw rs1 rs2 imm) s t :=
  ⟨_, exec_sw_ok h,
    { pc := congrArg (· + 4) (afterWordStore_pc _ _ s)
      clock := busWrite_clock _ _ _
      memory := fun hm => .inr ⟨rs1, rs2, imm, 4, .inr (.inr ⟨rfl, rfl⟩), stores_word hm _⟩ }⟩

theorem effect_ecall (s : State) : ∃ t, exec .ecall s = .next t ∧ Effect .ecall s t := by
  refine ⟨_, rfl, ?_, ?_, fun _ => .inl fun a => ?_⟩
  · simp [nextPc]
  · rw [retire_clock, acceptReply_clock, hardwareUnits, Nat.add_sub_cancel_left]
    unfold handlerTime portUnits
    cases s.params.realization <;> rfl
  · simp

/-- Every instruction that the table gives no trap retires with its effect. -/
theorem exec_effect {i : Instr} {s : State} (h : instrTrap i s = none) : ∃ t, exec i s = .next t ∧ Effect i s t := by
  obtain ⟨-, -, -, -, -, -, hbranch⟩ := conditionalBranches
  cases i with
  | lui rd imm => exact effect_of_computes (computes_lui rd imm s) rfl
  | auipc rd imm => exact effect_of_computes (computes_auipc rd imm s) rfl
  | jal rd imm => exact effect_of_computes (computes_jal rd imm s) rfl
  | jalr rd rs1 imm => exact effect_of_computes (computes_jalr rd rs1 imm s) rfl
  | beq rs1 rs2 imm =>
    obtain ⟨hbeq, -⟩ := hbranch rs1 rs2 imm s
    exact effect_of_continues hbeq rfl
  | bne rs1 rs2 imm =>
    obtain ⟨-, hbne, -⟩ := hbranch rs1 rs2 imm s
    exact effect_of_continues hbne rfl
  | blt rs1 rs2 imm =>
    obtain ⟨-, -, hblt, -⟩ := hbranch rs1 rs2 imm s
    exact effect_of_continues hblt rfl
  | bge rs1 rs2 imm =>
    obtain ⟨-, -, -, hbge, -⟩ := hbranch rs1 rs2 imm s
    exact effect_of_continues hbge rfl
  | bltu rs1 rs2 imm =>
    obtain ⟨-, -, -, -, hbltu, -⟩ := hbranch rs1 rs2 imm s
    exact effect_of_continues hbltu rfl
  | bgeu rs1 rs2 imm =>
    obtain ⟨-, -, -, -, -, hbgeu⟩ := hbranch rs1 rs2 imm s
    exact effect_of_continues hbgeu rfl
  | lb rd rs1 imm | lbu rd rs1 imm =>
    obtain ⟨-, hin⟩ := of_accessTrap_eq_none h
    exact effect_of_loads (loads_of_ok (memReadByte_ok hin) (wordAddr_busAddr _) rfl rd) rfl rfl
  | lh rd rs1 imm | lhu rd rs1 imm =>
    obtain ⟨he, hin⟩ := of_accessTrap_eq_none h
    exact effect_of_loads (loads_of_ok (memReadHalf_ok he hin) (wordAddr_busAddr _) rfl rd) rfl rfl
  | lw rd rs1 imm =>
    exact effect_of_loads (loads_of_ok (wordRead_ok (wordAccessible_of_accessTrap_eq_none h)) rfl rfl rd) rfl rfl
  | sb rs1 rs2 imm =>
    obtain ⟨-, hin⟩ := of_accessTrap_eq_none h
    exact effect_of_subwordStore (.inl ⟨rfl, rfl⟩) (exec_sb_ok hin) (fun hm => stores_byte hm _) rfl rfl
  | sh rs1 rs2 imm =>
    obtain ⟨he, hin⟩ := of_accessTrap_eq_none h
    exact effect_of_subwordStore (.inr (.inl ⟨rfl, rfl⟩)) (exec_sh_ok he hin) (fun hm => stores_half hm he _) rfl rfl
  | sw rs1 rs2 imm => exact effect_sw (wordAccessible_of_accessTrap_eq_none h)
  | addi rd | slti rd | sltiu rd | xori rd | ori rd | andi rd | slli rd | srli rd | srai rd =>
    exact effect_of_computes (computes_result rd _ s) rfl
  | add rd | sub rd | sll rd | slt rd | sltu rd | xor rd | srl rd | sra rd | or rd | and rd =>
    exact effect_of_computes (computes_result rd _ s) rfl
  | fence => exact effect_of_continues (continues_retire s) rfl
  | ecall => exact effect_ecall s
  | ebreak => cases h

/-- An instruction that leaves a running core running has taken no trap. -/
theorem instrTrap_eq_none_of_running {i : Instr} {s t : State} (hexec : exec i s = .next t) (ht : t.run = .running) :
    instrTrap i s = none := by
  have houtcome := exec_outcome i s
  unfold ExecOutcome at houtcome
  cases htr : instrTrap i s with
  | none => rfl
  | some tr =>
    rw [htr] at houtcome
    obtain rfl : takeTrap tr s = t := by simpa [hexec] using houtcome.symm
    cases ht

theorem effect_of_exec {i : Instr} {s t : State} (h : instrTrap i s = none) (hexec : exec i s = .next t) :
    Effect i s t := by
  obtain ⟨u, hu, heffect⟩ := exec_effect h
  obtain rfl : u = t := by simpa [hu] using hexec
  exact heffect

theorem effect_of_running {i : Instr} {s t : State} (hexec : exec i s = .next t) (ht : t.run = .running) :
    Effect i s t :=
  effect_of_exec (instrTrap_eq_none_of_running hexec ht) hexec

/-! ## The program counter -/

/-- Settles O17. -/
theorem retiringCommitsTheNextPc : Obligations.RetiringCommitsTheNextPc :=
  fun _ _ _ _ hexec ht => (effect_of_running hexec ht).pc

/-- A branch or a jump: an instruction that commits a target. -/
def IsTransfer (i : Instr) : Prop :=
  (∃ rd imm, i = .jal rd imm) ∨ (∃ rd rs1 imm, i = .jalr rd rs1 imm) ∨ (∃ rs1 rs2 imm, i = .beq rs1 rs2 imm) ∨
    (∃ rs1 rs2 imm, i = .bne rs1 rs2 imm) ∨ (∃ rs1 rs2 imm, i = .blt rs1 rs2 imm) ∨
    (∃ rs1 rs2 imm, i = .bge rs1 rs2 imm) ∨ (∃ rs1 rs2 imm, i = .bltu rs1 rs2 imm) ∨
    (∃ rs1 rs2 imm, i = .bgeu rs1 rs2 imm)

/-- R157, R168: a branch or a jump raises nothing itself. -/
theorem instrTrap_of_isTransfer {i : Instr} (h : IsTransfer i) (s : State) : instrTrap i s = none := by
  obtain ⟨_, _, rfl⟩ | ⟨_, _, _, rfl⟩ | ⟨_, _, _, rfl⟩ | ⟨_, _, _, rfl⟩ | ⟨_, _, _, rfl⟩ | ⟨_, _, _, rfl⟩ |
    ⟨_, _, _, rfl⟩ | ⟨_, _, _, rfl⟩ := h <;> rfl

/-- An instruction that takes no trap leaves the run state as it was. -/
theorem run_of_instrTrap_eq_none {i : Instr} {s t : State} (h : instrTrap i s = none) (hexec : exec i s = .next t) :
    t.run = s.run := by
  have houtcome := exec_outcome i s
  unfold ExecOutcome at houtcome
  rw [h] at houtcome
  obtain ⟨u, hu, hR⟩ := houtcome
  obtain rfl : u = t := by simpa [hu] using hexec
  exact hR.run

/-- The one result of an instruction reads back from any register but register 0. -/
theorem Computes.readReg_of_next {o : Result} {s t : State} {rd : RegIdx} {v next : Word} (h : Computes o s rd v next)
    (ho : o = .next t) (hrd : rd ≠ 0) : readReg rd t = v := by
  obtain ⟨u, hu, hregs, -⟩ := h
  obtain rfl : u = t := by simpa [hu] using ho
  rw [hregs, if_pos ⟨rfl, hrd⟩]

/-- Settles O45: the transfer retires, and the next step's fetch makes the checks. -/
theorem badTargetsFaultAtTheNextFetch : Obligations.BadTargetsFaultAtTheNextFetch := by
  intro i s t hr hexec htransfer
  have hrun : t.run = .running := (run_of_instrTrap_eq_none (instrTrap_of_isTransfer htransfer s) hexec).trans hr
  refine ⟨hrun, (effect_of_running hexec hrun).pc, step_misaligned hrun, step_outOfRange hrun, ?_, ?_⟩
  · rintro rd imm rfl hrd
    exact (computes_jal rd imm s).readReg_of_next hexec hrd
  · rintro rd rs1 imm rfl hrd
    exact (computes_jalr rd rs1 imm s).readReg_of_next hexec hrd

/-- One step of `JAL x0, 0`: its link goes to register 0, its target is its own address. -/
theorem step_jal_self {s : State} (hr : s.run = .running) (hacc : WordAccessible s.pc s)
    (hw : fetchedWord s = 0x0000006F) :
    step s = .next (retireTo s.pc (writeReg 0 (s.pc + 4) (dispatchState s))) := by
  have hd : decode (fetchedWord s) = .ok (.jal 0 0) := by rw [hw]; decide
  have htarget : relativeTarget 0 (dispatchState s) = s.pc := by
    rw [relativeTarget, dispatchState_pc]
    exact BitVec.add_zero s.pc
  calc step s = exec (.jal 0 0) (dispatchState s) := step_decoded hr hacc hd
    _ = .next (retireTo (relativeTarget 0 (dispatchState s))
          (writeReg 0 ((dispatchState s).pc + 4) (dispatchState s))) := rfl
    _ = _ := by rw [htarget, dispatchState_pc]

theorem SameRegs.trans {s t u : State} (h : SameRegs s t) (g : SameRegs t u) : SameRegs s u :=
  fun i => (g i).trans (h i)

/-- Settles O28: the state after each step fetches the same word again. -/
theorem jumpToItselfNeverTraps : Obligations.JumpToItselfNeverTraps := by
  intro s n
  induction n generalizing s with
  | zero => exact fun hr _ _ => ⟨s, rfl, hr, rfl, fun _ => rfl, rfl⟩
  | succ n ih =>
    intro hr hacc hw
    have hstep := step_jal_self hr hacc hw
    obtain ⟨u, hu, hrun, hpc, hregs, hmem⟩ := ih (retireTo s.pc (writeReg 0 (s.pc + 4) (dispatchState s)))
      (by simpa using hr) (by simpa [WordAccessible] using hacc) (by simpa [fetchedWord] using hw)
    have hfirst : SameRegs s (retireTo s.pc (writeReg 0 (s.pc + 4) (dispatchState s))) :=
      (sameRegs_dispatchState s).trans ((sameRegs_writeReg_zero _ _).trans fun i => readReg_retireTo _ i _)
    refine ⟨u, ?_, hrun, hpc, hfirst.trans hregs, hmem.trans (dispatchState_mem s)⟩
    rw [run_next (M := Sys2Proof.core) hstep]
    exact hu

/-! ## Memory -/

/-- The bytes a dispatched store can change, in terms of the state before the step. -/
theorem IsStore.decoded {i : Instr} {rs1 rs2 : RegIdx} {imm : Word} {n : Nat} {d : Except DecodeFailure Instr}
    (h : IsStore i rs1 rs2 imm n) (hd : d = .ok i) :
    d = .ok (.sb rs1 rs2 imm) ∧ n = 1 ∨ d = .ok (.sh rs1 rs2 imm) ∧ n = 2 ∨ d = .ok (.sw rs1 rs2 imm) ∧ n = 4 := by
  subst hd
  obtain ⟨rfl, hn⟩ | ⟨rfl, hn⟩ | ⟨rfl, hn⟩ := h
  · exact .inl ⟨rfl, hn⟩
  · exact .inr (.inl ⟨rfl, hn⟩)
  · exact .inr (.inr ⟨rfl, hn⟩)

/-- Settles O26: a trap keeps memory, and a retired instruction changes it in a store's bytes alone. -/
theorem memoryChangesOnlyWhereAStoreStores : Obligations.MemoryChangesOnlyWhereAStoreStores := by
  intro s t a hm hr hs hne
  obtain ⟨i, hd, htr, hexec, -⟩ | ⟨tr, b, rfl, -, hb⟩ := step_next_cases hr hs
  · have heffect := effect_of_exec ((instrTrap_dispatchState i s).trans htr) hexec
    rw [← dispatchState_mem s] at hm hne
    obtain hsame | ⟨rs1, rs2, imm, n, hi, hstores⟩ := heffect.memory hm
    · exact absurd (hsame a) hne
    · have hea : effectiveAddress rs1 imm (dispatchState s) = effectiveAddress rs1 imm s := by
        rw [effectiveAddress, effectiveAddress, sameRegs_dispatchState]
      rw [hea] at hstores
      refine ⟨rs1, rs2, imm, n, hi.decoded hd, ?_⟩
      by_contra hout
      exact hne ((hstores a).trans (if_neg hout))
  · obtain ⟨-, hmem, -⟩ := takeTrap_keeps hb tr
    exact absurd (congrArg (Memory.readByte · a) hmem) hne

/-! ## Time -/

/-- The handler's time depends on the registers and its own state, which the dispatch leaves alone. -/
theorem hardwareUnits_dispatchState (i : Instr) (s : State) :
    hardwareUnits i (dispatchState s) = hardwareUnits i s := by
  cases i with
  | ecall => simp [hardwareUnits, dispatchState]
  | _ => rfl

theorem two_le_hardwareUnits (i : Instr) (s : State) : 2 ≤ hardwareUnits i s := by
  unfold hardwareUnits
  split <;> omega

/-- R264: one unit between Decoding and Dispatching, and in the hardware realization one for the fetch and those of the
instruction. -/
theorem clockUnits_eq (i : Instr) (s : State) :
    clockUnits i s = 1 + portUnits 1 s + portUnits (hardwareUnits i s - 2) s := by
  have htwo := two_le_hardwareUnits i s
  unfold clockUnits portUnits
  cases s.params.realization with
  | software => rfl
  | hardware => simp only; omega

/-- Settles O57. -/
theorem clockUnitsOfARetiredInstruction : Obligations.ClockUnitsOfARetiredInstruction := by
  intro s t i hr hacc hd hs ht
  have hexec : exec i (dispatchState s) = .next t := (step_decoded hr hacc hd).symm.trans hs
  have hclock := (effect_of_running hexec ht).clock
  have hunits : ∀ n, portUnits n (dispatchState s) = portUnits n s := fun n => by
    simp only [portUnits, dispatchState_params]
  rw [hclock, hardwareUnits_dispatchState, hunits, dispatchState_clock, clockUnits_eq]
  omega

end Sys2Proof.Machine
end

section
/-! Proofs about EBREAK and the environment call (`47_fence_system.md` R201 to R207): where the core stops, what a
handler is given and what is taken back from it, and what the reference handler puts out. -/

namespace Sys2Proof.Machine

/-! ## EBREAK -/

/-- R201: EBREAK takes its trap from every state. -/
theorem traps_ebreak (s : State) : Traps (exec .ebreak s) s (.breakpoint s.pc) := rfl

/-- Settles O53: the first step takes the trap, and every step after it is one clock unit. -/
theorem ebreakStopsTheCore : Obligations.EbreakStopsTheCore := by
  refine ⟨(decode_ebreak_iff _).mpr rfl, traps_ebreak, fun s n hr hacc hw => ?_⟩
  have hd : decode (fetchedWord s) = .ok .ebreak := (decode_ebreak_iff _).mpr hw
  have hexec : exec .ebreak (dispatchState s) = .next (takeTrap (.breakpoint (dispatchState s).pc) (dispatchState s)) :=
    traps_ebreak (dispatchState s)
  rw [dispatchState_pc] at hexec
  refine ⟨tick n (takeTrap (.breakpoint s.pc) (dispatchState s)), ?_, rfl, dispatchState_pc s,
    sameRegs_dispatchState s, dispatchState_mem s⟩
  rw [run_next (M := Sys2Proof.core) ((step_decoded hr hacc hd).trans hexec)]
  exact run_trapped rfl n

/-! ## ECALL -/

/-- The reply an environment call gets (R203). -/
def ecallReply (s : State) : HandlerReply := callHandler s.params.handler s.hostState (archRegs s)

/-- The state after an environment call. -/
def afterEcall (s : State) : State := retire (acceptReply (ecallReply s) (handlerTime (archRegs s) s))

/-- R202, R203. -/
theorem exec_ecall (s : State) : exec .ecall s = .next (afterEcall s) := rfl

@[simp] theorem afterEcall_cells (s : State) : (afterEcall s).cells = (ecallReply s).regs := rfl
@[simp] theorem afterEcall_pc (s : State) : (afterEcall s).pc = s.pc + 4 := by simp [afterEcall]
@[simp] theorem afterEcall_run (s : State) : (afterEcall s).run = s.run := by simp [afterEcall]
@[simp] theorem afterEcall_mem (s : State) : (afterEcall s).mem = s.mem := by simp [afterEcall]
@[simp] theorem afterEcall_bus (s : State) : (afterEcall s).bus = s.bus := by simp [afterEcall]
@[simp] theorem afterEcall_params (s : State) : (afterEcall s).params = s.params := by simp [afterEcall]
@[simp] theorem afterEcall_hostState (s : State) : (afterEcall s).hostState = (ecallReply s).hostState := rfl
@[simp] theorem afterEcall_output (s : State) : (afterEcall s).output = s.output ++ (ecallReply s).output := by
  simp [afterEcall]

theorem afterEcall_sameMemory (s : State) : SameMemory s (afterEcall s) :=
  fun a => congrArg (Memory.readByte · a) (afterEcall_mem s)

/-- Settles O54: the handler is given the registers as they read. -/
theorem ecallHandsTheRegistersToTheHandler : Obligations.EcallHandsTheRegistersToTheHandler :=
  ⟨(decode_ecall_iff _).mpr rfl, fun s => ⟨archRegs s, ecallReply s, afterEcall s, archRegs_getElem s, rfl,
    exec_ecall s, fun _ => rfl, afterEcall_pc s, afterEcall_sameMemory s, afterEcall_run s, afterEcall_params s,
    afterEcall_bus s, afterEcall_hostState s, afterEcall_output s⟩⟩

/-- Two states that read the same registers give a handler the same register file. -/
theorem archRegs_eq_of_sameRegs {s s' : State} (h : SameRegs s s') : archRegs s = archRegs s' :=
  Vector.ext fun j hj =>
    calc (archRegs s)[j] = readReg (BitVec.ofFin ⟨j, hj⟩) s := archRegs_getElem s (BitVec.ofFin ⟨j, hj⟩)
      _ = readReg (BitVec.ofFin ⟨j, hj⟩) s' := (h _).symm
      _ = (archRegs s')[j] := (archRegs_getElem s' (BitVec.ofFin ⟨j, hj⟩)).symm

/-- Settles O55: the reply is a function of the handler, its state and the register file given. -/
theorem handlerSeesOnlyTheRegisters : Obligations.HandlerSeesOnlyTheRegisters := by
  refine ⟨fun s hext => ?_, fun s s' hhandler hhost hregs => ?_⟩
  · have hreply : ecallReply s = Config.ecallHandler s.hostState (archRegs s) := by
      rw [ecallReply, hext, callHandler]
    refine ⟨archRegs s, afterEcall s, archRegs_getElem s, exec_ecall s, ?_, ?_, ?_⟩
    · rw [afterEcall_cells, hreply]
    · rw [afterEcall_hostState, hreply]
    · rw [afterEcall_output, hreply]
  · have hreply : ecallReply s = ecallReply s' := by
      rw [ecallReply, ecallReply, hhandler, hhost, archRegs_eq_of_sameRegs hregs]
    refine ⟨afterEcall s, afterEcall s', (ecallReply s).output, exec_ecall s, exec_ecall s', readReg_congr ?_, ?_,
      afterEcall_output s, ?_, afterEcall_pc s, afterEcall_pc s'⟩
    · rw [afterEcall_cells, afterEcall_cells, hreply]
    · rw [afterEcall_hostState, afterEcall_hostState, hreply]
    · rw [afterEcall_output, hreply]

/-! ## The reference handler -/

/-- The decimal digits of a number as bytes, most significant first. -/
def digitBytes (n : Nat) : List Byte := (Nat.toDigits 10 n).map fun c => BitVec.ofNat 8 c.toNat

theorem digitByte_eq : ∀ d < 10, digitByte d = BitVec.ofNat 8 d.digitChar.toNat := by decide

theorem digitBytes_of_lt {n : Nat} (h : n < 10) : digitBytes n = [digitByte n] := by
  rw [digitBytes, Nat.toDigits_of_lt_base h, digitByte_eq n h]
  rfl

theorem digitBytes_of_ge {n : Nat} (h : 10 ≤ n) : digitBytes n = digitBytes (n / 10) ++ [digitByte (n % 10)] := by
  rw [digitBytes, Nat.toDigits_of_base_le (by omega) h, List.map_append, digitByte_eq _ (Nat.mod_lt n (by omega))]
  rfl

/-- With as much fuel as the number has digits, the digits are complete. -/
theorem digitsBefore_eq (fuel n : Nat) (acc : List Byte) (h : n < 10 ^ (fuel + 1)) :
    digitsBefore (fuel + 1) n acc = digitBytes n ++ acc := by
  induction fuel generalizing n acc with
  | zero =>
    have hlt : n < 10 := by simpa using h
    rw [digitsBefore, if_pos hlt, digitBytes_of_lt hlt, List.singleton_append]
  | succ fuel ih =>
    rw [digitsBefore]
    split
    case isTrue hlt => rw [digitBytes_of_lt hlt, List.singleton_append]
    case isFalse hge =>
      have hdiv : n / 10 < 10 ^ (fuel + 1) := Nat.div_lt_of_lt_mul (by rw [← Nat.pow_succ']; exact h)
      rw [ih _ _ hdiv, digitBytes_of_ge (n := n) (by omega), List.append_assoc, List.singleton_append]

/-- The number a value prints as: signed where `ECALL_PRINT_SIGNED` is set (D27). -/
def printedNumber (printSigned : Bool) (v : Word) : Int := if printSigned then v.toInt else v.toNat

/-- A value prints with a minus sign exactly when signed printing is set and bit 31 is. -/
theorem printedNumber_eq (printSigned : Bool) (v : Word) :
    printedNumber printSigned v = if printSigned && v.msb then (v.toNat - 2 ^ 32 : Int) else v.toNat := by
  cases printSigned <;> simp [printedNumber, BitVec.toInt_eq_msb_cond]

/-- Ten digits of fuel are enough for a word. -/
theorem digitsBefore_ten {n : Nat} (h : n ≤ 2 ^ 32) : digitsBefore 10 n [] = digitBytes n := by
  rw [digitsBefore_eq 9 n [] (by omega), List.append_nil]

/-- R206: a minus sign for a negative number, then its digits. -/
theorem decimalText_eq (printSigned : Bool) (v : Word) :
    decimalText printSigned v =
      (if printedNumber printSigned v < 0 then [0x2D] else []) ++ digitBytes (printedNumber printSigned v).natAbs := by
  have hlt := v.isLt
  rw [printedNumber_eq, decimalText]
  split
  · have habs : (v.toNat - 2 ^ 32 : Int).natAbs = 2 ^ 32 - v.toNat := by omega
    rw [if_pos (by omega), habs, digitsBefore_ten (by omega), List.singleton_append]
  · rw [if_neg (by omega), Int.natAbs_natCast, digitsBefore_ten (by omega), List.nil_append]

/-- R206: what the reference handler puts out, by the registers as read. -/
theorem refOutput_archRegs (sel arg : RegIdx) (printSigned : Bool) (s : State) :
    refOutput sel arg printSigned (archRegs s) =
      if readReg sel s = 0 then [(readReg arg s).extractLsb' 0 8]
      else if readReg sel s = 1 then decimalText printSigned (readReg arg s) ++ [0x0A]
      else [] := by
  rw [refOutput, archRegs_getElem, archRegs_getElem]

/-- Settles O56: the reference handler hands back the registers and its state as given. -/
theorem referenceHandlerPrints : Obligations.ReferenceHandlerPrints := by
  intro s sel arg printSigned h number
  have hreply : ecallReply s = ⟨archRegs s, s.hostState, refOutput sel arg printSigned (archRegs s)⟩ := by
    rw [ecallReply, h, callHandler, refHandler]
  have hout := afterEcall_output s
  rw [hreply, refOutput_archRegs] at hout
  have hcells : (afterEcall s).cells = s.cells.set 0 0 := by rw [afterEcall_cells, hreply, archRegs]
  have hhost : (afterEcall s).hostState = s.hostState := by rw [afterEcall_hostState, hreply]
  refine ⟨afterEcall s, exec_ecall s, readReg_of_cells_set_zero hcells, afterEcall_pc s, afterEcall_sameMemory s, hhost,
    afterEcall_run s, fun h0 => ?_, fun h1 => ?_, fun h0 h1 => ?_⟩
  · rw [hout, if_pos h0]
  · rw [hout, h1, if_neg (by decide), if_pos rfl, decimalText_eq]
    simp only [List.append_assoc]
    rfl
  · rw [hout, if_neg h0, if_neg h1, List.append_nil]

end Sys2Proof.Machine
end

section
/-! Proofs about starting a core (`70_reset_and_hazards.md` R253 to R257): the registers left to the setup, and memory
with the image over it. -/

namespace Sys2Proof.Machine

/-- R253: every register but 0 and 2 is left to the setup. -/
theorem readReg_of_boot {b : BootSetup} {s : State} (h : State.boot b = some s) {i : RegIdx} (h0 : i ≠ 0)
    (h2 : i ≠ 2) : readReg i s = b.xinit[i.toNat]'i.isLt := by
  obtain ⟨-, -, rfl⟩ := boot_some h
  have hcell2 : 2 ≠ i.toNat := fun hi => h2 (BitVec.eq_of_toNat_eq hi.symm)
  rw [readReg, if_neg h0]
  simp only [resetCells]
  rw [Vector.getElem_set_ne _ _ hcell2, Vector.getElem_set_ne _ _ (cell_ne_zero h0)]

/-- Settles O22. -/
theorem resetLeavesTheRestToTheSetup : Obligations.ResetLeavesTheRestToTheSetup := by
  intro b s h
  have hregs := fun i h0 h2 => readReg_of_boot h (i := i) h0 h2
  obtain ⟨-, -, rfl⟩ := boot_some h
  exact ⟨rfl, hregs, rfl, rfl, rfl⟩

theorem toNat_append_eq {n m : Nat} (a : BitVec n) (b : BitVec m) : (a ++ b).toNat = a.toNat * 2 ^ m + b.toNat := by
  rw [BitVec.toNat_append, ← Nat.shiftLeft_add_eq_or_of_lt b.isLt, Nat.shiftLeft_eq]

/-- R42: the number of a word of four bytes, the first least significant. -/
theorem toNat_wordOfBytes (b0 b1 b2 b3 : Byte) :
    (wordOfBytes b0 b1 b2 b3).toNat = b0.toNat + b1.toNat * 2 ^ 8 + b2.toNat * 2 ^ 16 + b3.toNat * 2 ^ 24 := by
  unfold wordOfBytes
  rw [toNat_append_eq, toNat_append_eq, toNat_append_eq]
  omega

/-- R257: memory at reset reads as the image from address 0. -/
theorem readByte_initial_image (size : Nat) (contents : List Host.Cell) {image : List Byte} {k : Nat}
    (h : k < image.length) : Memory.readByte (Memory.initial size contents image) k = image[k] := by
  rw [Memory.initial, Memory.readByte_writeBytes (Memory.ofCells_wf ⟨by simp, by simp⟩ size contents),
    dif_pos ⟨Nat.zero_le k, by omega⟩]
  rfl

/-- Beyond the image memory at reset reads as the contents given. -/
theorem readByte_initial_contents (size : Nat) (contents : List Host.Cell) {image : List Byte} {k : Nat}
    (h : image.length ≤ k) : Memory.readByte (Memory.initial size contents image) k =
      Memory.readByte (Memory.ofCells size [] contents) k := by
  rw [Memory.initial, Memory.readByte_writeBytes (Memory.ofCells_wf ⟨by simp, by simp⟩ size contents),
    dif_neg (by omega)]

/-- Settles O23. -/
theorem imageIsLoadedFromAddressZero : Obligations.ImageIsLoadedFromAddressZero := by
  refine ⟨fun b s h => ?_, fun b hlong => if_neg fun hc => ?_, fun b hv hfit => ⟨_, if_pos ⟨hv, hfit⟩⟩⟩
  · obtain ⟨-, hfit, rfl⟩ := boot_some h
    have himage : ∀ k (hk : k < b.image.length),
        Memory.readByte (Memory.initial b.params.memSize b.memInit b.image) k = b.image[k] := fun k hk =>
      readByte_initial_image _ _ hk
    refine ⟨himage, fun k hk hin => ?_, fun k hk => ?_, fun a ha => ?_⟩
    · rw [readByte_initial_contents _ _ hk, Memory.readByte_ofCells ⟨by simp, by simp⟩, if_pos hin]
      rfl
    · rw [readByte_initial_contents _ _ (hfit.trans hk), Memory.readByte_ofCells ⟨by simp, by simp⟩,
        if_neg (Nat.not_lt.mpr hk)]
      rfl
    · rw [Memory.readWord, toNat_wordOfBytes, himage a (by omega), himage (a + 1) (by omega), himage (a + 2) (by omega),
        himage (a + 3) ha]
  · omega

end Sys2Proof.Machine
end
